-- ==== Sys2Proof/Word.lean ====
section
/-! DEFINITION. The widths of the SPU: data words, instruction words, the argument field, register numbers, text. -/

namespace Sys2Proof

/-- A general register, a RAM cell or a value-stack cell: 64 bits, read as a signed number where a rule says so (10 R27, R35, R38). -/
abbrev Word := BitVec 64

/-- An instruction word (30 R70). -/
abbrev IWord := BitVec 32

/-- The 24-bit argument field of an instruction word (30 R71). -/
abbrev Arg := BitVec 24

/-- One byte of the binary object (20 R50). -/
abbrev Byte := BitVec 8

/-- A register number, 0 to 31 (10 R27). -/
abbrev Reg := Fin 32

/-- A piece of assembly text: one line, one token or one name (44 R230, R231). -/
abbrev Text := List Char

/-- The most negative 64-bit value, -2^63 (45 R274). -/
def minWord : Word := BitVec.intMin 64

end Sys2Proof
end

