-- ==== Sys2Proof/Config.lean ====
section
/-! DEFINITION. What an implementation fixes (00 R7): the header layout, the directive escape and the command table, as a
configuration record `Codec`; the failures an operation can end in; and the one source of free values. The reference values of the
parameters stand in `Sys2Proof.Decode`. -/

namespace Sys2Proof

/-- The two opcode spaces (30 R73 to R75). -/
inductive Space where
  | base
  | directive
  deriving DecidableEq, Repr

/-- The closed set of seven instruction shapes (30 R77, 42 R151). -/
inductive Shape where
  | triple
  | double
  | single
  | noarg
  | ldc
  | move
  | jump
  deriving DecidableEq, Repr

/-- The execution handlers the commands are bound to, one per mnemonic (30 R91, 43 R190, R192). -/
inductive Handler where
  | mov | ldc | jmp | call | sqrt | not | add | sub | mul | div | mod | shl | shr | or | xor | and | cmp | ret | pushr | popr
  | ldm | stm | input | print | scrhw | draw | dump | halt
  deriving DecidableEq, Repr

/-- The seven conditions of a jump (46 R313). Their code numbers are `Cond.code` (30 R88). -/
inductive Cond where
  | always
  | equal
  | notEqual
  | greaterOrEqual
  | greater
  | lessOrEqual
  | less
  deriving DecidableEq, Repr

/-- The two stacks a stack failure can be about (60 R358). -/
inductive StackId where
  | value
  | call
  deriving DecidableEq, Repr

/-- The status set: `ok` and the thirteen failures of the taxonomy (60 R350). -/
inductive Status where
  | ok
  | decodeError
  | unknownOpcode
  | shapeMismatch
  | arityMismatch
  | operandRangeError
  | undefinedLabel
  | duplicateLabel
  | stackUnderflow
  | stackOverflow
  | divisionByZero
  | outOfBoundsAccess
  | negativeSquareRootOperand
  | prematureEOF
  deriving DecidableEq, Repr

/-- What an operation ends in when it does not succeed: a failure status with the information it carries (`raise E(info)`, 00 R13).
The status of a failure is `Failure.status`; the payloads are the model's and no program can observe them (60 R369; log 28). -/
inductive Failure where
  /-- A field outside the 24-bit window (60 R352). -/
  | decodeError (pos len : Nat)
  /-- A key with no command (60 R353). -/
  | unknownOpcode (opcode : Nat) (space : Space)
  /-- A mnemonic that is not in the table: status `UnknownOpcode` (43 R198). -/
  | unknownMnemonic (name : Text)
  /-- A decoded instruction whose case is not the shape of its command (43 R201). -/
  | shapeMismatch (opcode : Nat) (given expected : Shape)
  /-- A reserved condition code met by a consumer: status `ShapeMismatch` (30 R98). -/
  | badCondition (cond : Nat)
  /-- A token that is not of the kind its operand needs: status `ShapeMismatch` (44 R235 to R239). -/
  | badToken (token : Text)
  /-- A line with the wrong number of tokens (60 R356). -/
  | arityMismatch (given expected : Nat)
  /-- A value that does not fit its field (60 R355). -/
  | operandRange (value : Int) (bits : Nat)
  /-- A label name of length 0 or above 64, declared or referred to: status `OperandRangeError` (44 R233, 60 R355). -/
  | labelLength (length : Nat)
  /-- A label reference that no declaration binds (60 R357). -/
  | undefinedLabel (name : Text)
  /-- A second declaration of a label (60 R357). -/
  | duplicateLabel (name : Text)
  /-- A pop of an empty stack (60 R358). -/
  | stackUnderflow (stack : StackId)
  /-- A push on a full call stack (60 R358). -/
  | stackOverflow (stack : StackId)
  /-- `div` or `mod` by zero (60 R359). -/
  | divisionByZero
  /-- A RAM index or a jump, call or return target out of bounds (60 R360). -/
  | outOfBounds (index : Int)
  /-- `sqrt` of a negative number (60 R361). -/
  | negativeSquareRoot (operand : Int)
  /-- A binary file whose length is not a multiple of 4 (60 R362). -/
  | prematureEOF (length : Nat)
  deriving DecidableEq, Repr

/-- A command of the table (43 R190). `space` is the source's directive flag; `handler` names the execution rule. -/
structure Command where
  mnemonic : Text
  opcode : Nat
  space : Space
  shape : Shape
  handler : Handler
  deriving DecidableEq, Repr

/-- The parameter `HDR_LAYOUT`: the four views of a word and `build` (the spec's `mk`), the word with given views (00 R12, 30 R71). -/
structure HdrLayout where
  opc : IWord → BitVec 6
  ext : IWord → Bool
  rsv : IWord → Bool
  arg : IWord → Arg
  build : BitVec 6 → Bool → Bool → Arg → IWord

/-- The configuration constants of the block (10 R21): `HDR_LAYOUT`, `OPC_DIRECTIVE` and `CMD_TABLE`. The lookup arrays are functions
of the table (43 R193). -/
structure Codec where
  layout : HdrLayout
  opcDirective : BitVec 6
  cmdTable : List Command

/-- The free values: the 64-bit values the spec leaves unconstrained (93 U3, U4) and the host's answers to `input` beyond those already
supplied (46 R324). The step reads the value at its counter `freeCount` and advances the counter (log 17). -/
opaque Config.freeWord : Nat → Word

end Sys2Proof
end

