-- ==== Sys2Proof/Syntax.lean ====
section
/-! DEFINITION. The instructions: one constructor of `Instr` per row of the opcode table, and the decoded instruction of the block,
one case per shape. -/

namespace Sys2Proof

/-- The decoded instruction (42 R150): one case per shape, its fields carried as integers, so that a field may be out of range on the
`instr_in` port. -/
inductive DecodedInstr where
  | triple (opcode rd rl rr : Nat)
  | double (opcode rd rn : Nat)
  | single (opcode rd : Nat)
  | noarg (opcode : Nat)
  | ldc (opcode rd : Nat) (imm : Int)
  | move (opcode rd rn : Nat)
  | jump (opcode cond : Nat) (off : Int)
  deriving DecidableEq, Repr

/-- The instructions of the command table (30 R91, R92). Operands stand in the order of the shape's fields. -/
inductive Instr where
  /-- `mov rd rn` (45 R270). -/
  | mov (rd rn : Reg)
  /-- `ldc rd $imm` (45 R271). -/
  | ldc (rd : Reg) (imm : Int)
  /-- `jmp[.cond] off` (46 R311). `cond` is the 5-bit number of the condition slot (30 R88, R98). -/
  | jmp (cond : Fin 32) (off : Int)
  /-- `call off` (46 R316). The slot `cond` is carried and ignored (92 D19). -/
  | call (cond : Fin 32) (off : Int)
  /-- `sqrt rd rn` (45 R272). -/
  | sqrt (rd rn : Reg)
  /-- `not rd rn` (45 R273). -/
  | not (rd rn : Reg)
  /-- `add rd rl rr` (45 R275). -/
  | add (rd rl rr : Reg)
  /-- `sub rd rl rr` (45 R276). -/
  | sub (rd rl rr : Reg)
  /-- `mul rd rl rr` (45 R277). -/
  | mul (rd rl rr : Reg)
  /-- `div rd rl rr` (45 R278). -/
  | div (rd rl rr : Reg)
  /-- `mod rd rl rr` (45 R279). -/
  | mod (rd rl rr : Reg)
  /-- `shl rd rl rr` (45 R280). -/
  | shl (rd rl rr : Reg)
  /-- `shr rd rl rr` (45 R281). -/
  | shr (rd rl rr : Reg)
  /-- `or rd rl rr` (45 R282). -/
  | or (rd rl rr : Reg)
  /-- `xor rd rl rr` (45 R283). -/
  | xor (rd rl rr : Reg)
  /-- `and rd rl rr` (45 R284). -/
  | and (rd rl rr : Reg)
  /-- `cmp rd rn` (45 R285). -/
  | cmp (rd rn : Reg)
  /-- `ret` (46 R318). -/
  | ret
  /-- `pushr rd` (46 R319). -/
  | pushr (rd : Reg)
  /-- `popr rd` (46 R320). -/
  | popr (rd : Reg)
  /-- `ldm rd rn` (46 R322): `rd` holds the address, `rn` is the sink. -/
  | ldm (rd rn : Reg)
  /-- `stm rd rn` (46 R323): `rd` holds the address, `rn` is the source. -/
  | stm (rd rn : Reg)
  /-- `input rd` (46 R324). -/
  | input (rd : Reg)
  /-- `print rd` (46 R325). -/
  | print (rd : Reg)
  /-- `scrhw rd rn` (46 R326). -/
  | scrhw (rd rn : Reg)
  /-- `draw rd` (46 R327). -/
  | draw (rd : Reg)
  /-- `dump` (46 R328). -/
  | dump
  /-- `halt` (46 R329). -/
  | halt
  deriving DecidableEq, Repr

end Sys2Proof
end

