-- ==== Sys2Proof/WellFormed.lean ====
section
/-! DEFINITION. Well-formedness: immediates and offsets inside the signed 20-bit range, valid decoded instructions, lawful header
layouts. -/

namespace Sys2Proof

/-- The signed 20-bit range, -524288 to 524287 (30 R87). -/
def fitsSimm20 (s : Int) : Bool := decide (-524288 ≤ s) && decide (s ≤ 524287)

/-- An instruction is well-formed when its signed operand fits its field; registers and conditions are in range by their type. -/
def Instr.wellFormed : Instr → Bool
  | .ldc _ imm => fitsSimm20 imm
  | .jmp _ off => fitsSimm20 off
  | .call _ off => fitsSimm20 off
  | .mov _ _ | .sqrt _ _ | .not _ _ | .add _ _ _ | .sub _ _ _ | .mul _ _ _ | .div _ _ _ | .mod _ _ _ | .shl _ _ _ | .shr _ _ _
  | .or _ _ _ | .xor _ _ _ | .and _ _ _ | .cmp _ _ | .ret | .pushr _ | .popr _ | .ldm _ _ | .stm _ _ | .input _ | .print _
  | .scrhw _ _ | .draw _ | .dump | .halt => true

/-- A decoded instruction is valid when every field is in its range (42 R150). -/
def DecodedInstr.valid : DecodedInstr → Bool
  | .triple o rd rl rr => decide (o < 1024) && decide (rd < 32) && decide (rl < 32) && decide (rr < 32)
  | .double o rd rn => decide (o < 1024) && decide (rd < 32) && decide (rn < 32)
  | .single o rd => decide (o < 1024) && decide (rd < 32)
  | .noarg o => decide (o < 1024)
  | .ldc o rd imm => decide (o < 64) && decide (rd < 32) && fitsSimm20 imm
  | .move o rd rn => decide (o < 64) && decide (rd < 32) && decide (rn < 32)
  | .jump o cond off => decide (o < 64) && decide (cond < 32) && fitsSimm20 off

/-- A header layout is lawful when the four views of a built word are the values it was built from, and a word is rebuilt from its
views: `unpack` and `pack` are inverse (30 R71). -/
structure HdrLayout.Lawful (L : HdrLayout) : Prop where
  opc_build : ∀ o e r a, L.opc (L.build o e r a) = o
  ext_build : ∀ o e r a, L.ext (L.build o e r a) = e
  rsv_build : ∀ o e r a, L.rsv (L.build o e r a) = r
  arg_build : ∀ o e r a, L.arg (L.build o e r a) = a
  build_views : ∀ w, L.build (L.opc w) (L.ext w) (L.rsv w) (L.arg w) = w

end Sys2Proof
end

