-- ==== Sys2Proof/Decode.lean ====
section
/-! DEFINITION. The instruction codec unit: the bitfield and register primitives (40, 41), the shape codecs (42), the command table,
the lookups and the two multiplexers (43), over any header layout and any command table; the reference values of the parameters; the
block's operation interface (10 R23, R24); and, at the reference values, the machine's decoder and encoder. -/

namespace Sys2Proof

/-! ### Statuses (60 R350, R351) -/

/-- The status a failure is reported as (60 R350). -/
def Failure.status : Failure → Status
  | .decodeError _ _ => .decodeError
  | .unknownOpcode _ _ => .unknownOpcode
  | .unknownMnemonic _ => .unknownOpcode
  | .shapeMismatch _ _ _ => .shapeMismatch
  | .badCondition _ => .shapeMismatch
  | .badToken _ => .shapeMismatch
  | .arityMismatch _ _ => .arityMismatch
  | .operandRange _ _ => .operandRangeError
  | .labelLength _ => .operandRangeError
  | .undefinedLabel _ => .undefinedLabel
  | .duplicateLabel _ => .duplicateLabel
  | .stackUnderflow _ => .stackUnderflow
  | .stackOverflow _ => .stackOverflow
  | .divisionByZero => .divisionByZero
  | .outOfBounds _ => .outOfBoundsAccess
  | .negativeSquareRoot _ => .negativeSquareRootOperand
  | .prematureEOF _ => .prematureEOF

/-- The reference numbering of the statuses on the 4-bit port (60 R351, D17). Only `ok = 0` is the source's. -/
def Status.code : Status → BitVec 4
  | .ok => 0
  | .decodeError => 1
  | .unknownOpcode => 2
  | .shapeMismatch => 3
  | .arityMismatch => 4
  | .operandRangeError => 5
  | .undefinedLabel => 6
  | .duplicateLabel => 7
  | .stackUnderflow => 8
  | .stackOverflow => 9
  | .divisionByZero => 10
  | .outOfBoundsAccess => 11
  | .negativeSquareRootOperand => 12
  | .prematureEOF => 13

/-- The status an operation of the block reports (10 R23). -/
def statusOf (r : Except Failure α) : Status :=
  match r with
  | .ok _ => .ok
  | .error f => f.status

/-! ### Bitfields of the argument (40) -/

/-- `fld(A, pos, len)` (00 R10): the unsigned value of the `len` bits of the argument from position `pos`, position 0 being the most
significant of the 24 bits. Meant for `pos + len ≤ 24`. -/
def fld (a : Arg) (pos len : Nat) : Nat := a.toNat / 2 ^ (24 - pos - len) % 2 ^ len

/-- `ins(A, pos, len, v)` (00 R13): the argument with that field replaced by `v`. Meant for `pos + len ≤ 24` and `v < 2 ^ len`. -/
def ins (a : Arg) (pos len v : Nat) : Arg :=
  BitVec.ofNat 24
    (a.toNat / 2 ^ (24 - pos) * 2 ^ (24 - pos) + v * 2 ^ (24 - pos - len) + a.toNat % 2 ^ (24 - pos - len))

/-- `get_bitfield` (40 R112, R113; its laws: R118, `FieldLaws`). -/
def getBitfield (L : HdrLayout) (w : IWord) (pos len : Nat) : Except Failure Nat :=
  if 24 < pos + len then .error (.decodeError pos len) else .ok (fld (L.arg w) pos len)

/-- `get_directive_bitfield` (40 R114; its laws: R118, `FieldLaws`). -/
def getDirectiveBitfield (L : HdrLayout) (w : IWord) (pos len : Nat) : Except Failure Nat :=
  getBitfield L w (pos + 10) len

/-- `set_bitfield` (40 R115, R116; its laws: R118, `FieldLaws`): the window is checked before the value. -/
def setBitfield (L : HdrLayout) (w : IWord) (pos len value : Nat) : Except Failure IWord :=
  if 24 < pos + len then .error (.decodeError pos len)
  else if 2 ^ len ≤ value then .error (.operandRange value len)
  else .ok (L.build (L.opc w) (L.ext w) (L.rsv w) (ins (L.arg w) pos len value))

/-- `set_directive_bitfield` (40 R117; its laws: R118, `FieldLaws`). -/
def setDirectiveBitfield (L : HdrLayout) (w : IWord) (pos len value : Nat) : Except Failure IWord :=
  setBitfield L w (pos + 10) len value

/-- Two bit ranges share no position (40 R118, law 3); an empty range is disjoint from every range. -/
def disjointRanges (pos len pos' len' : Nat) : Prop := pos + len ≤ pos' ∨ pos' + len' ≤ pos ∨ len = 0 ∨ len' = 0

/-- The laws of a read primitive and a write primitive with a window (40 R118): read after write, frame and header frame (laws 1, 3, 4),
write after read (law 2), and split (law 5), for every word and every request inside the window. -/
def FieldLaws (L : HdrLayout) (get : IWord → Nat → Nat → Except Failure Nat) (set : IWord → Nat → Nat → Nat → Except Failure IWord)
    (window : Nat) : Prop :=
  ∀ w : IWord,
    (∀ pos len v, pos + len ≤ window → v < 2 ^ len → ∃ w', set w pos len v = .ok w'
      ∧ get w' pos len = .ok v
      ∧ (∀ pos' len', pos' + len' ≤ window → disjointRanges pos len pos' len' → get w' pos' len' = get w pos' len')
      ∧ L.opc w' = L.opc w ∧ L.ext w' = L.ext w ∧ L.rsv w' = L.rsv w)
    ∧ (∀ pos len, pos + len ≤ window → ∃ v, get w pos len = .ok v ∧ set w pos len v = .ok w)
    ∧ (∀ pos a b, pos + (a + b) ≤ window → ∃ x y, get w pos a = .ok x ∧ get w (pos + a) b = .ok y
        ∧ get w pos (a + b) = .ok (x * 2 ^ b + y))

/-! ### Register numbers (41) -/

/-- `get_register` (41 R130). -/
def getRegister (L : HdrLayout) (w : IWord) (pos : Nat) (useHeadBit : Bool) : Except Failure Nat :=
  if useHeadBit then do
    let lo ← getBitfield L w pos 4
    .ok (16 * (L.ext w).toNat + lo)
  else getBitfield L w pos 5

/-- `get_directive_register` (41 R131). -/
def getDirectiveRegister (L : HdrLayout) (w : IWord) (pos : Nat) (useHeadBit : Bool) : Except Failure Nat :=
  getRegister L w (pos + 10) useHeadBit

/-- `set_register` (41 R132 to R134): head-bit mode writes `EXT` always, inline mode never. -/
def setRegister (L : HdrLayout) (w : IWord) (pos : Nat) (useHeadBit : Bool) (n : Nat) : Except Failure IWord :=
  let width := if useHeadBit then 4 else 5
  if 24 < pos + width then .error (.decodeError pos width)
  else if 31 < n then .error (.operandRange n 5)
  else if useHeadBit then
    setBitfield L (L.build (L.opc w) (decide (16 ≤ n)) (L.rsv w) (L.arg w)) pos 4 (n % 16)
  else setBitfield L w pos 5 n

/-- `set_directive_register` (41 R135). -/
def setDirectiveRegister (L : HdrLayout) (w : IWord) (pos : Nat) (useHeadBit : Bool) (n : Nat) : Except Failure IWord :=
  setRegister L w (pos + 10) useHeadBit n

/-! ### Opcode accessors and signed fields (42 R152, R161, 30 R87) -/

/-- `get_base_opcode` (42 R152). -/
def getBaseOpcode (L : HdrLayout) (w : IWord) : Nat := (L.opc w).toNat

/-- `set_base_opcode` (42 R152). -/
def setBaseOpcode (L : HdrLayout) (w : IWord) (o : Nat) : Except Failure IWord :=
  if 63 < o then .error (.operandRange o 6)
  else .ok (L.build (BitVec.ofNat 6 o) (L.ext w) (L.rsv w) (L.arg w))

/-- `get_directive_opcode` (42 R152): read with the plain primitive at position 0. -/
def getDirectiveOpcode (L : HdrLayout) (w : IWord) : Except Failure Nat := getBitfield L w 0 10

/-- `set_directive_opcode` (42 R152). -/
def setDirectiveOpcode (L : HdrLayout) (w : IWord) (q : Nat) : Except Failure IWord :=
  if 1023 < q then .error (.operandRange q 10) else setBitfield L w 0 10 q

/-- `sext_20` (00 R13): a 20-bit value read as two's complement. -/
def sext20 (u : Nat) : Int := if u < 2 ^ 19 then (u : Int) else (u : Int) - 2 ^ 20

/-- `tc_20` (00 R13): the 20-bit two's complement pattern of a signed integer. -/
def tc20 (s : Int) : Nat := (s % 2 ^ 20).toNat

/-- `set_simm20` (42 R161). -/
def setSimm20 (L : HdrLayout) (w : IWord) (pos : Nat) (s : Int) : Except Failure IWord :=
  if s < -524288 ∨ 524287 < s then .error (.operandRange s 20) else setBitfield L w pos 20 (tc20 s)

/-! ### The shape table (42 R151) -/

/-- The shape id (30 R77, 42 R151). -/
def Shape.id : Shape → BitVec 3
  | .triple => 0
  | .double => 1
  | .single => 2
  | .noarg => 3
  | .ldc => 4
  | .move => 5
  | .jump => 6

/-- The space of a shape, the source's directive flag (30 R77). -/
def Shape.space : Shape → Space
  | .triple | .double | .single | .noarg => .directive
  | .ldc | .move | .jump => .base

/-- The number of operand tokens of a line of the shape (42 R151, 44 R240). -/
def Shape.arity : Shape → Nat
  | .triple => 3
  | .double | .ldc | .move => 2
  | .single | .jump => 1
  | .noarg => 0

/-- The argument fields a shape owns, as (plain position, width) pairs, the directive opcode among them (30 R78 to R84). -/
def Shape.fields : Shape → List (Nat × Nat)
  | .triple => [(0, 10), (10, 4), (14, 5), (19, 5)]
  | .double => [(0, 10), (10, 4), (14, 5)]
  | .single => [(0, 10), (10, 4)]
  | .noarg => [(0, 10)]
  | .ldc => [(0, 4), (4, 20)]
  | .move => [(0, 4), (6, 5)]
  | .jump => [(0, 4), (4, 20)]

/-- Whether the shape has a head-bit operand, so that it owns `EXT` (30 R97, 42 R151). -/
def Shape.hasHeadBit : Shape → Bool
  | .noarg => false
  | .triple | .double | .single | .ldc | .move | .jump => true

/-- The shape of a decoded instruction: its case (42 R150). -/
def DecodedInstr.shape : DecodedInstr → Shape
  | .triple _ _ _ _ => .triple
  | .double _ _ _ => .double
  | .single _ _ => .single
  | .noarg _ => .noarg
  | .ldc _ _ _ => .ldc
  | .move _ _ _ => .move
  | .jump _ _ _ => .jump

/-- The opcode a decoded instruction carries (42 R150). -/
def DecodedInstr.opcode : DecodedInstr → Nat
  | .triple o _ _ _ => o
  | .double o _ _ => o
  | .single o _ => o
  | .noarg o => o
  | .ldc o _ _ => o
  | .move o _ _ => o
  | .jump o _ _ => o

/-- A word is canonical for a shape when every bit no field of the shape owns is 0 and, for a directive shape, `OPC` is the escape
(42 R170). An argument position is unowned when no field of the shape covers it. -/
def canonical (C : Codec) (sh : Shape) (w : IWord) : Bool :=
  (C.layout.rsv w == false)
  && (sh.hasHeadBit || C.layout.ext w == false)
  && (List.range 24).all (fun p =>
      sh.fields.any (fun f => decide (f.1 ≤ p) && decide (p < f.1 + f.2)) || fld (C.layout.arg w) p 1 == 0)
  && (match sh.space with
      | .base => true
      | .directive => C.layout.opc w == C.opcDirective)

/-! ### Binary-decode, shape by shape (42 R154 to R160) -/

/-- `decode_TRIPLE` (42 R154). -/
def decodeTriple (L : HdrLayout) (w : IWord) : Except Failure DecodedInstr := do
  let o ← getDirectiveOpcode L w
  let rd ← getDirectiveRegister L w 0 true
  let rl ← getDirectiveRegister L w 4 false
  let rr ← getDirectiveRegister L w 9 false
  .ok (.triple o rd rl rr)

/-- `decode_DOUBLE` (42 R155). -/
def decodeDouble (L : HdrLayout) (w : IWord) : Except Failure DecodedInstr := do
  let o ← getDirectiveOpcode L w
  let rd ← getDirectiveRegister L w 0 true
  let rn ← getDirectiveRegister L w 4 false
  .ok (.double o rd rn)

/-- `decode_SINGLE` (42 R156). -/
def decodeSingle (L : HdrLayout) (w : IWord) : Except Failure DecodedInstr := do
  let o ← getDirectiveOpcode L w
  let rd ← getDirectiveRegister L w 0 true
  .ok (.single o rd)

/-- `decode_NOARG` (42 R157). -/
def decodeNoarg (L : HdrLayout) (w : IWord) : Except Failure DecodedInstr := do
  let o ← getDirectiveOpcode L w
  .ok (.noarg o)

/-- `decode_LDC` (42 R158). -/
def decodeLdc (L : HdrLayout) (w : IWord) : Except Failure DecodedInstr := do
  let rd ← getRegister L w 0 true
  let u ← getBitfield L w 4 20
  .ok (.ldc (getBaseOpcode L w) rd (sext20 u))

/-- `decode_MOVE` (42 R159). -/
def decodeMove (L : HdrLayout) (w : IWord) : Except Failure DecodedInstr := do
  let rd ← getRegister L w 0 true
  let rn ← getRegister L w 6 false
  .ok (.move (getBaseOpcode L w) rd rn)

/-- `decode_JUMP` (42 R160): the condition slot is transported whatever it holds. -/
def decodeJump (L : HdrLayout) (w : IWord) : Except Failure DecodedInstr := do
  let cond ← getRegister L w 0 true
  let u ← getBitfield L w 4 20
  .ok (.jump (getBaseOpcode L w) cond (sext20 u))

/-- The seven binary-decoders, the data inputs of the decode multiplexer (43 R200, R202). -/
def decodeShape (L : HdrLayout) (sh : Shape) (w : IWord) : Except Failure DecodedInstr :=
  match sh with
  | .triple => decodeTriple L w
  | .double => decodeDouble L w
  | .single => decodeSingle L w
  | .noarg => decodeNoarg L w
  | .ldc => decodeLdc L w
  | .move => decodeMove L w
  | .jump => decodeJump L w

/-! ### Binary-encode, shape by shape (42 R153, R162 to R168) -/

/-- The start word of a directive-space encode: all clear but for the escape and the directive opcode (42 R153). -/
def startDirective (C : Codec) (o : Nat) : Except Failure IWord :=
  setDirectiveOpcode C.layout (C.layout.build C.opcDirective false false 0) o

/-- The start word of a base-space encode: all clear but for the opcode (42 R153). -/
def startBase (C : Codec) (o : Nat) : Except Failure IWord :=
  setBaseOpcode C.layout (C.layout.build 0 false false 0) o

/-- `encode_TRIPLE` (42 R162). -/
def encodeTriple (C : Codec) (o rd rl rr : Nat) : Except Failure IWord := do
  let w ← startDirective C o
  let w ← setDirectiveRegister C.layout w 0 true rd
  let w ← setDirectiveRegister C.layout w 4 false rl
  setDirectiveRegister C.layout w 9 false rr

/-- `encode_DOUBLE` (42 R163). -/
def encodeDouble (C : Codec) (o rd rn : Nat) : Except Failure IWord := do
  let w ← startDirective C o
  let w ← setDirectiveRegister C.layout w 0 true rd
  setDirectiveRegister C.layout w 4 false rn

/-- `encode_SINGLE` (42 R164). -/
def encodeSingle (C : Codec) (o rd : Nat) : Except Failure IWord := do
  let w ← startDirective C o
  setDirectiveRegister C.layout w 0 true rd

/-- `encode_NOARG` (42 R165). -/
def encodeNoarg (C : Codec) (o : Nat) : Except Failure IWord := startDirective C o

/-- `encode_LDC` (42 R166). -/
def encodeLdc (C : Codec) (o rd : Nat) (imm : Int) : Except Failure IWord := do
  let w ← startBase C o
  let w ← setRegister C.layout w 0 true rd
  setSimm20 C.layout w 4 imm

/-- `encode_MOVE` (42 R167): the two reserved bits are written 0. -/
def encodeMove (C : Codec) (o rd rn : Nat) : Except Failure IWord := do
  let w ← startBase C o
  let w ← setRegister C.layout w 0 true rd
  let w ← setBitfield C.layout w 4 2 0
  setRegister C.layout w 6 false rn

/-- `encode_JUMP` (42 R168): the condition is coded as a register number. -/
def encodeJump (C : Codec) (o cond : Nat) (off : Int) : Except Failure IWord := do
  let w ← startBase C o
  let w ← setRegister C.layout w 0 true cond
  setSimm20 C.layout w 4 off

/-- The seven binary-encoders, selected by the case of the decoded instruction (43 R201, R202). -/
def encodeShape (C : Codec) (d : DecodedInstr) : Except Failure IWord :=
  match d with
  | .triple o rd rl rr => encodeTriple C o rd rl rr
  | .double o rd rn => encodeDouble C o rd rn
  | .single o rd => encodeSingle C o rd
  | .noarg o => encodeNoarg C o
  | .ldc o rd imm => encodeLdc C o rd imm
  | .move o rd rn => encodeMove C o rd rn
  | .jump o cond off => encodeJump C o cond off

/-! ### The command table and its lookups (43) -/

/-- The number of entries of a space's lookup array: the largest opcode of the space plus one, or 0 (43 R193). -/
def lutSize (table : List Command) (sp : Space) : Nat :=
  table.foldl (fun n c => if c.space = sp then max n (c.opcode + 1) else n) 0

/-- `LUT_BASE` and `LUT_DIR`: the dense array of command indices of a space, filled in table order (43 R193). -/
def lut (table : List Command) (sp : Space) : List (Option Nat) :=
  table.zipIdx.foldl (fun acc ci => if ci.1.space = sp then acc.set ci.1.opcode (some ci.2) else acc)
    (List.replicate (lutSize table sp) none)

/-- `LOOKUP_OPCODE` (43 R194): an opcode beyond the array, or an empty entry, is `UnknownOpcode`. -/
def lookupOpcode (C : Codec) (opcode : Nat) (sp : Space) : Except Failure Nat :=
  match (lut C.cmdTable sp)[opcode]? with
  | some (some i) => .ok i
  | some none => .error (.unknownOpcode opcode sp)
  | none => .error (.unknownOpcode opcode sp)

/-- The mnemonic-keyed lookup: a linear scan for the first command of that name (43 R198). -/
def lookupMnemonic (C : Codec) (name : Text) : Except Failure Nat :=
  match C.cmdTable.findIdx? (fun c => c.mnemonic == name) with
  | some i => .ok i
  | none => .error (.unknownMnemonic name)

/-- `INIT` (43 R199): no effect, no failure. -/
def initBlock (_ : Codec) : Except Failure Unit := .ok ()

/-- A mnemonic the tokenizer can find (43 R191, invariant 7). -/
def mnemonicOk (m : Text) : Bool :=
  !m.isEmpty && m.all (fun c => !([' ', '\t', '.', '$', ';', '#', ':'].contains c))

/-- The well-formedness of `CMD_TABLE` (43 R191, invariants 1, 2 and 4 to 7; invariant 3 follows from 2). -/
def Codec.wf (C : Codec) : Bool :=
  decide ((C.cmdTable.map (fun c => c.mnemonic)).Nodup)
  && decide ((C.cmdTable.map (fun c => (c.opcode, c.space))).Nodup)
  && C.cmdTable.all (fun c =>
      (match c.space with
       | .base => decide (c.opcode < 64) && decide (c.opcode ≠ C.opcDirective.toNat)
       | .directive => decide (c.opcode < 1024))
      && decide (c.space = c.shape.space)
      && mnemonicOk c.mnemonic)

/-! ### The multiplexers (43 R200, R201) -/

/-- What `DECODE` answers: the command index, the shape and the decoded instruction (10 R24). -/
structure Decoded where
  cmdIndex : Nat
  shape : Shape
  instr : DecodedInstr
  deriving DecidableEq, Repr

/-- The key of a word: its opcode and its space (30 R75). -/
def wordKey (C : Codec) (w : IWord) : Nat × Space :=
  if C.layout.opc w = C.opcDirective then (fld (C.layout.arg w) 0 10, .directive)
  else ((C.layout.opc w).toNat, .base)

/-- `DECODE` (43 R200). The escape is tested first, so a word with `OPC = OPC_DIRECTIVE` is never looked up in base space. -/
def decodeWord (C : Codec) (w : IWord) : Except Failure Decoded := do
  let i ← lookupOpcode C (wordKey C w).1 (wordKey C w).2
  match C.cmdTable[i]? with
  | none => .error (.unknownOpcode (wordKey C w).1 (wordKey C w).2)
  | some c => do
    let d ← decodeShape C.layout c.shape w
    .ok ⟨i, c.shape, d⟩

/-- `ENCODE` (43 R201): the lookup, then the shape, then the fields (60 R363). -/
def encodeWord (C : Codec) (d : DecodedInstr) : Except Failure IWord := do
  let i ← lookupOpcode C d.opcode d.shape.space
  match C.cmdTable[i]? with
  | none => .error (.unknownOpcode d.opcode d.shape.space)
  | some c =>
    if c.shape = d.shape then encodeShape C d else .error (.shapeMismatch d.opcode d.shape c.shape)

/-! ### The block's operation interface (10 R23, R24) -/

/-- One invocation of the block: the operations of BRC (with the `dir` input) and of SRM, with their inputs. Ports are unbounded
naturals (R23 allows it; D12). -/
inductive BlockOp where
  | getBf (dir : Bool) (word : IWord) (pos len : Nat)
  | setBf (dir : Bool) (word : IWord) (pos len value : Nat)
  | getReg (dir : Bool) (word : IWord) (pos : Nat) (useHeadBit : Bool)
  | setReg (dir : Bool) (word : IWord) (pos : Nat) (useHeadBit : Bool) (value : Nat)
  | decode (word : IWord)
  | encode (instr : DecodedInstr)
  | lookupOpcode (opcode : Nat) (space : Space)
  | init
  deriving DecidableEq, Repr

/-- The outputs of a successful invocation (10 R23, R24). -/
inductive BlockOut where
  | value (n : Nat)
  | word (w : IWord)
  | decoded (d : Decoded)
  | cmdIndex (i : Nat)
  | done
  deriving DecidableEq, Repr

/-- The block: every operation is a function of its inputs and of the configuration alone (10 R20, R25). -/
def block (C : Codec) : BlockOp → Except Failure BlockOut
  | .getBf false w p l => .value <$> getBitfield C.layout w p l
  | .getBf true w p l => .value <$> getDirectiveBitfield C.layout w p l
  | .setBf false w p l v => .word <$> setBitfield C.layout w p l v
  | .setBf true w p l v => .word <$> setDirectiveBitfield C.layout w p l v
  | .getReg false w p h => .value <$> getRegister C.layout w p h
  | .getReg true w p h => .value <$> getDirectiveRegister C.layout w p h
  | .setReg false w p h n => .word <$> setRegister C.layout w p h n
  | .setReg true w p h n => .word <$> setDirectiveRegister C.layout w p h n
  | .decode w => .decoded <$> decodeWord C w
  | .encode d => .word <$> encodeWord C d
  | .lookupOpcode o sp => .cmdIndex <$> lookupOpcode C o sp
  | .init => (fun _ => .done) <$> initBlock C

/-! ### The reference values of the parameters (00 R7) -/

/-- The reference `HDR_LAYOUT` (30 R71, D1): `OPC = W[31:26]`, `EXT = W[25]`, `RSV = W[24]`, `A = W[23:0]`. -/
def refLayout : HdrLayout where
  opc w := w.extractLsb' 26 6
  ext w := w.getLsbD 25
  rsv w := w.getLsbD 24
  arg w := w.extractLsb' 0 24
  build o e r a := o ++ BitVec.ofBool e ++ BitVec.ofBool r ++ a

/-- The mnemonic of a handler in the reference table (30 R91). -/
def Handler.name : Handler → Text
  | .mov => ['m', 'o', 'v']
  | .ldc => ['l', 'd', 'c']
  | .jmp => ['j', 'm', 'p']
  | .call => ['c', 'a', 'l', 'l']
  | .sqrt => ['s', 'q', 'r', 't']
  | .not => ['n', 'o', 't']
  | .add => ['a', 'd', 'd']
  | .sub => ['s', 'u', 'b']
  | .mul => ['m', 'u', 'l']
  | .div => ['d', 'i', 'v']
  | .mod => ['m', 'o', 'd']
  | .shl => ['s', 'h', 'l']
  | .shr => ['s', 'h', 'r']
  | .or => ['o', 'r']
  | .xor => ['x', 'o', 'r']
  | .and => ['a', 'n', 'd']
  | .cmp => ['c', 'm', 'p']
  | .ret => ['r', 'e', 't']
  | .pushr => ['p', 'u', 's', 'h', 'r']
  | .popr => ['p', 'o', 'p', 'r']
  | .ldm => ['l', 'd', 'm']
  | .stm => ['s', 't', 'm']
  | .input => ['i', 'n', 'p', 'u', 't']
  | .print => ['p', 'r', 'i', 'n', 't']
  | .scrhw => ['s', 'c', 'r', 'h', 'w']
  | .draw => ['d', 'r', 'a', 'w']
  | .dump => ['d', 'u', 'm', 'p']
  | .halt => ['h', 'a', 'l', 't']

/-- A row of the reference table; the space is that of the shape (43 R191, invariant 6). -/
def refCommand (h : Handler) (opcode : Nat) (sh : Shape) : Command := ⟨h.name, opcode, sh.space, sh, h⟩

/-- The reference `CMD_TABLE` (30 R92, D4, D18). -/
def refTable : List Command :=
  [ refCommand .mov 1 .move, refCommand .ldc 2 .ldc, refCommand .jmp 3 .jump, refCommand .call 4 .jump,
    refCommand .sqrt 1 .double, refCommand .not 2 .double, refCommand .add 3 .triple, refCommand .sub 4 .triple,
    refCommand .mul 5 .triple, refCommand .div 6 .triple, refCommand .mod 7 .triple, refCommand .shl 8 .triple,
    refCommand .shr 9 .triple, refCommand .or 10 .triple, refCommand .xor 11 .triple, refCommand .and 12 .triple,
    refCommand .cmp 13 .double, refCommand .ret 14 .noarg, refCommand .pushr 15 .single, refCommand .popr 16 .single,
    refCommand .ldm 17 .double, refCommand .stm 18 .double, refCommand .input 19 .single, refCommand .print 20 .single,
    refCommand .scrhw 21 .double, refCommand .draw 22 .single, refCommand .dump 23 .noarg, refCommand .halt 24 .noarg ]

/-- The reference configuration: `OPC_DIRECTIVE = 0` (D3). -/
def refCodec : Codec where
  layout := refLayout
  opcDirective := 0
  cmdTable := refTable

/-- The reference `COND_CODE` (30 R88, D9). -/
def Cond.code : Cond → Nat
  | .always => 0
  | .equal => 1
  | .notEqual => 2
  | .greaterOrEqual => 3
  | .greater => 4
  | .lessOrEqual => 5
  | .less => 6

/-- The condition with a code; 7 and above are reserved (30 R98). -/
def condOfCode : Nat → Option Cond
  | 0 => some .always
  | 1 => some .equal
  | 2 => some .notEqual
  | 3 => some .greaterOrEqual
  | 4 => some .greater
  | 5 => some .lessOrEqual
  | 6 => some .less
  | _ + 7 => none

/-! ### The machine's decoder -/

/-- A decoded register number as a register; binary-decode produces only numbers below 32 (42 R150). -/
def asReg (n : Nat) : Except Failure Reg := if h : n < 32 then .ok ⟨n, h⟩ else .error (.operandRange n 5)

/-- The operands of a triple-register instruction. -/
def asTriple (d : DecodedInstr) (f : Reg → Reg → Reg → Instr) : Except Failure Instr :=
  match d with
  | .triple _ rd rl rr => do .ok (f (← asReg rd) (← asReg rl) (← asReg rr))
  | other => .error (.shapeMismatch other.opcode other.shape .triple)

/-- The operands of a double-register instruction. -/
def asDouble (d : DecodedInstr) (f : Reg → Reg → Instr) : Except Failure Instr :=
  match d with
  | .double _ rd rn => do .ok (f (← asReg rd) (← asReg rn))
  | other => .error (.shapeMismatch other.opcode other.shape .double)

/-- The operand of a single-register instruction. -/
def asSingle (d : DecodedInstr) (f : Reg → Instr) : Except Failure Instr :=
  match d with
  | .single _ rd => do .ok (f (← asReg rd))
  | other => .error (.shapeMismatch other.opcode other.shape .single)

/-- An instruction without operands. -/
def asNoarg (d : DecodedInstr) (i : Instr) : Except Failure Instr :=
  match d with
  | .noarg _ => .ok i
  | other => .error (.shapeMismatch other.opcode other.shape .noarg)

/-- The operands of a load-constant instruction. -/
def asLdc (d : DecodedInstr) (f : Reg → Int → Instr) : Except Failure Instr :=
  match d with
  | .ldc _ rd imm => do .ok (f (← asReg rd) imm)
  | other => .error (.shapeMismatch other.opcode other.shape .ldc)

/-- The operands of a move instruction. -/
def asMove (d : DecodedInstr) (f : Reg → Reg → Instr) : Except Failure Instr :=
  match d with
  | .move _ rd rn => do .ok (f (← asReg rd) (← asReg rn))
  | other => .error (.shapeMismatch other.opcode other.shape .move)

/-- The operands of a jump-shaped instruction; the condition slot is a 5-bit number (30 R88). -/
def asJump (d : DecodedInstr) (f : Fin 32 → Int → Instr) : Except Failure Instr :=
  match d with
  | .jump _ cond off => do .ok (f (← asReg cond) off)
  | other => .error (.shapeMismatch other.opcode other.shape .jump)

/-- The instruction a handler runs on a decoded instruction (43 R192). DESIGN CHOICE (log 41): 43 R191 has no invariant that ties a handler
to a shape, so a well-formed table may bind a handler to a command of another shape; the spec is silent there, and the model gives a shape
mismatch. The reference table has no such row. -/
def bindHandler (h : Handler) (d : DecodedInstr) : Except Failure Instr :=
  match h with
  | .mov => asMove d .mov
  | .ldc => asLdc d .ldc
  | .jmp => asJump d .jmp
  | .call => asJump d .call
  | .sqrt => asDouble d .sqrt
  | .not => asDouble d .not
  | .add => asTriple d .add
  | .sub => asTriple d .sub
  | .mul => asTriple d .mul
  | .div => asTriple d .div
  | .mod => asTriple d .mod
  | .shl => asTriple d .shl
  | .shr => asTriple d .shr
  | .or => asTriple d .or
  | .xor => asTriple d .xor
  | .and => asTriple d .and
  | .cmp => asDouble d .cmp
  | .ret => asNoarg d .ret
  | .pushr => asSingle d .pushr
  | .popr => asSingle d .popr
  | .ldm => asDouble d .ldm
  | .stm => asDouble d .stm
  | .input => asSingle d .input
  | .print => asSingle d .print
  | .scrhw => asDouble d .scrhw
  | .draw => asSingle d .draw
  | .dump => asNoarg d .dump
  | .halt => asNoarg d .halt

/-- The instruction a word is under a configuration: `DECODE`, then the handler of the command it names (43 R192, 46 R310). -/
def decodeWith (C : Codec) (w : IWord) : Except Failure Instr := do
  let d ← decodeWord C w
  match C.cmdTable[d.cmdIndex]? with
  | none => .error (.unknownOpcode (wordKey C w).1 (wordKey C w).2)
  | some c => bindHandler c.handler d.instr

/-- The machine's decoder, at the reference configuration. -/
def decode (w : IWord) : Except Failure Instr := decodeWith refCodec w

/-- The 32-bit word of four bytes in file order, little-endian (20 R50). -/
def wordOfBytes (b0 b1 b2 b3 : Byte) : IWord := b3 ++ b2 ++ b1 ++ b0

/-- The four bytes of a word in file order (20 R50). -/
def bytesOfWord (w : IWord) : List Byte :=
  [w.extractLsb' 0 8, w.extractLsb' 8 8, w.extractLsb' 16 8, w.extractLsb' 24 8]

/-- Decoding from bytes: one word and the bytes after it, or the failure; fewer than four bytes are an incomplete word. -/
def decodeBytes : List Byte → Except Failure (Instr × List Byte)
  | b0 :: b1 :: b2 :: b3 :: rest => do
    let i ← decode (wordOfBytes b0 b1 b2 b3)
    .ok (i, rest)
  | short => .error (.prematureEOF short.length)

/-- The instruction the decoder reads from an instruction whose bits are `w`: the word is laid out as its bytes and given to the
decoder. -/
def decodeTableWord (nbits w : Nat) : Option Instr :=
  match decodeBytes (bytesOfWord (BitVec.ofNat 32 (w % 2 ^ nbits))) with
  | .ok (i, _) => some i
  | .error _ => none

/-! ### The machine's encoder -/

/-- The handler of an instruction. -/
def Instr.handler : Instr → Handler
  | .mov _ _ => .mov
  | .ldc _ _ => .ldc
  | .jmp _ _ => .jmp
  | .call _ _ => .call
  | .sqrt _ _ => .sqrt
  | .not _ _ => .not
  | .add _ _ _ => .add
  | .sub _ _ _ => .sub
  | .mul _ _ _ => .mul
  | .div _ _ _ => .div
  | .mod _ _ _ => .mod
  | .shl _ _ _ => .shl
  | .shr _ _ _ => .shr
  | .or _ _ _ => .or
  | .xor _ _ _ => .xor
  | .and _ _ _ => .and
  | .cmp _ _ => .cmp
  | .ret => .ret
  | .pushr _ => .pushr
  | .popr _ => .popr
  | .ldm _ _ => .ldm
  | .stm _ _ => .stm
  | .input _ => .input
  | .print _ => .print
  | .scrhw _ _ => .scrhw
  | .draw _ => .draw
  | .dump => .dump
  | .halt => .halt

/-- The decoded instruction of an instruction, given its opcode number. -/
def Instr.decoded (o : Nat) : Instr → DecodedInstr
  | .mov rd rn => .move o rd rn
  | .ldc rd imm => .ldc o rd imm
  | .jmp cond off => .jump o cond off
  | .call cond off => .jump o cond off
  | .sqrt rd rn => .double o rd rn
  | .not rd rn => .double o rd rn
  | .add rd rl rr => .triple o rd rl rr
  | .sub rd rl rr => .triple o rd rl rr
  | .mul rd rl rr => .triple o rd rl rr
  | .div rd rl rr => .triple o rd rl rr
  | .mod rd rl rr => .triple o rd rl rr
  | .shl rd rl rr => .triple o rd rl rr
  | .shr rd rl rr => .triple o rd rl rr
  | .or rd rl rr => .triple o rd rl rr
  | .xor rd rl rr => .triple o rd rl rr
  | .and rd rl rr => .triple o rd rl rr
  | .cmp rd rn => .double o rd rn
  | .ret => .noarg o
  | .pushr rd => .single o rd
  | .popr rd => .single o rd
  | .ldm rd rn => .double o rd rn
  | .stm rd rn => .double o rd rn
  | .input rd => .single o rd
  | .print rd => .single o rd
  | .scrhw rd rn => .double o rd rn
  | .draw rd => .single o rd
  | .dump => .noarg o
  | .halt => .noarg o

/-- The opcode number of a handler's first command in a table. -/
def opcodeOf (C : Codec) (h : Handler) : Option Nat :=
  (C.cmdTable.find? (fun c => decide (c.handler = h))).map (fun c => c.opcode)

/-- The word of an instruction under a configuration: `ENCODE` of its decoded instruction. -/
def encodeWith (C : Codec) (i : Instr) : Except Failure IWord :=
  match opcodeOf C i.handler with
  | none => .error (.unknownMnemonic i.handler.name)
  | some o => encodeWord C (i.decoded o)

/-- The machine's encoder, at the reference configuration. -/
def encode (i : Instr) : Except Failure IWord := encodeWith refCodec i

end Sys2Proof
end

