-- ==== Sys2Proof/Machine/State.lean ====
section
/-! DEFINITION. The machine state of the SPU (10, Part 2), its reset value, and the reasons a step can stop. -/

namespace Sys2Proof.Machine

/-- The RAM contents (10 R38): (cell index, cell value) pairs in one canonical form, indices strictly rising and no pair equal to what
an unlisted cell reads as. The addressable unit is one 64-bit cell (20 R55; log 1). -/
abbrev Memory := List (Nat × Word)

/-- The flags register (10 R32): `e` equality, `l` sign/less-than, `o` the reserved overflow bit. -/
structure Flags where
  e : Bool
  l : Bool
  o : Bool
  deriving DecidableEq, Repr

/-- The engine's run state (10 R41, 60 R368). A faulted engine holds the failure that faulted it. -/
inductive RunState where
  | running
  | halted
  | faulted (f : Failure)
  deriving DecidableEq, Repr

/-- The snapshot `dump` prints: registers, instruction pointer, both stacks (46 R328), and the flags, which `dump` reads (10 R33; log 38). -/
structure Snapshot where
  regs : Vector Word 32
  ip : Nat
  flags : Flags
  valueStack : List Word
  callStack : List Nat
  deriving DecidableEq, Repr

/-- One output event of the host interface (46 R325, R327, R328; log 19). -/
inductive OutEvent where
  /-- One signed integer, from `print`. -/
  | int (v : Word)
  /-- One cell of `draw`: `* ` when nonzero, `. ` when zero. -/
  | cell (nonzero : Bool)
  /-- A line end of `draw`. -/
  | newline
  /-- A state snapshot, from `dump`. -/
  | dump (snap : Snapshot)
  deriving DecidableEq, Repr

/-- The machine state. The first ten fields are the spec's, `targetEndOk` is a parameter of it, and `inputs`, `outputs` and `freeCount` are
the model's own. -/
structure State where
  /-- The 32 general registers (10 R27). -/
  regs : Vector Word 32
  /-- The instruction pointer, a word index (10 R30). -/
  ip : Nat
  /-- The flags register (10 R32). -/
  flags : Flags
  /-- The value stack, top first (10 R35). -/
  valueStack : List Word
  /-- The call-return stack, top first (10 R36). -/
  callStack : List Nat
  /-- The instruction buffer; its length is `len` (10 R37). -/
  program : List IWord
  /-- The RAM (10 R38). -/
  ram : Memory
  /-- The constant `SCREEN_H` (10 R40). -/
  screenH : Nat
  /-- The constant `SCREEN_W` (10 R40). -/
  screenW : Nat
  /-- The parameter `TARGET_END_OK`: whether a target equal to `len` is in bounds (00 R7, 46 R312). No instruction writes it. -/
  targetEndOk : Bool
  /-- The engine's run state (10 R41). -/
  run : RunState
  /-- The values the host has supplied and `input` has not taken, next first (46 R324). -/
  inputs : List Word
  /-- The output events so far, oldest first (46 R325, R327, R328). -/
  outputs : List OutEvent
  /-- How many free values have been taken (log 17). -/
  freeCount : Nat
  deriving DecidableEq, Repr

/-- Why a step stops. -/
inductive Fault where
  /-- Raised by `step` when the engine is Halted or Faulted: both states are final, there is no transition (60 R368). Safe: the
  hardware does nothing there either (log 8). -/
  | notRunning
  /-- Raised by `step` when the instruction pointer lies beyond the end of the buffer, where no word can be fetched (10 R30 says no
  machine gets there). Safe (log 9). -/
  | ipBeyondBuffer
  deriving DecidableEq, Repr

/-- An instruction without a meaning. -/
inductive Refusal where
  /-- Raised by `exec` for an instruction that has no meaning yet; no arm raises it in this model. Safe. -/
  | notModelled (mnemonic : String)
  deriving DecidableEq, Repr

/-- The machine after construction, before any load (10 Part 3, 70 R393): `ip` 0, flags 0, both stacks empty, Running. Registers and
RAM cells read 0 and the screen is 1 by 1: the model's choices (log 2, log 3, log 5). `TARGET_END_OK` has the spec's reference value
(D30; log 21). `State.boot` takes all of them as arguments. -/
def State.reset : State where
  regs := Vector.replicate 32 0
  ip := 0
  flags := ⟨false, false, false⟩
  valueStack := []
  callStack := []
  program := []
  ram := []
  screenH := 1
  screenW := 1
  targetEndOk := false
  run := .running
  inputs := []
  outputs := []
  freeCount := 0

end Sys2Proof.Machine
end

