-- ==== Sys2Proof/Machine/Ops.lean ====
section
/-! DEFINITION. The named operations over the state: registers, RAM, the two stacks, the host interface, free values, bounds, and the
one way a failure ends a step. There is no return from a failure (60 R370), so no operation for it. -/

namespace Sys2Proof.Machine

/-- `RAM_CELLS` (00 R6). -/
def ramCells : Nat := 1048576

/-- `CALL_STACK_CAP` (00 R6, 10 R36). -/
def callStackCap : Nat := 1024

/-! ### RAM (10 R38, 20 R56, R59) -/

/-- What an unlisted RAM cell reads as (log 3). -/
def ramUnlisted : Word := 0

/-- The value of a RAM cell. -/
def Memory.read : Memory → Nat → Word
  | [], _ => ramUnlisted
  | (b, v) :: rest, a => if a = b then v else Memory.read rest a

/-- The RAM with one cell replaced, in canonical form. -/
def Memory.write : Memory → Nat → Word → Memory
  | [], a, v => if v = ramUnlisted then [] else [(a, v)]
  | (b, u) :: rest, a, v =>
    if a < b then (if v = ramUnlisted then (b, u) :: rest else (a, v) :: (b, u) :: rest)
    else if a = b then (if v = ramUnlisted then rest else (a, v) :: rest)
    else (b, u) :: Memory.write rest a v

/-- The canonical form: indices strictly rising and inside the RAM, no cell at the value an unlisted cell reads as. -/
def Memory.wf (m : Memory) : Bool :=
  decide (m.Pairwise (fun c d => c.1 < d.1)) && m.all (fun c => decide (c.1 < ramCells) && decide (c.2 ≠ ramUnlisted))

/-- `MemWrite(ea, 1, v)`. -/
def State.storeCell (s : State) (a : Nat) (v : Word) : State := { s with ram := s.ram.write a v }

/-! ### Registers (10 R27) -/

/-- The value of a general register. -/
def State.getReg (s : State) (r : Reg) : Word := s.regs.get r

/-- A general register written. -/
def State.setReg (s : State) (r : Reg) (v : Word) : State := { s with regs := s.regs.set r.val v r.isLt }

/-! ### Stacks (10 R35, R36) -/

/-- A value pushed on the value stack, which has no bound (46 R319, D31). -/
def State.pushValue (s : State) (v : Word) : State := { s with valueStack := v :: s.valueStack }

/-- The top of the value stack and the state without it (46 R320). -/
def State.popValue (s : State) : Except Failure (Word × State) :=
  match s.valueStack with
  | [] => .error (.stackUnderflow .value)
  | v :: rest => .ok (v, { s with valueStack := rest })

/-- Whether the call stack has room (46 R316). -/
def State.callRoom (s : State) : Except Failure Unit :=
  if callStackCap ≤ s.callStack.length then .error (.stackOverflow .call) else .ok ()

/-- The top of the call stack (46 R318). -/
def State.topCall (s : State) : Except Failure Nat :=
  match s.callStack with
  | [] => .error (.stackUnderflow .call)
  | t :: _ => .ok t

/-! ### Instruction pointer (10 R30, R31, 46 R312) -/

/-- `in_bounds(t)` for a buffer of `len` words, `endOk` being the parameter `TARGET_END_OK` (46 R312). -/
def inBounds (endOk : Bool) (len : Nat) (t : Int) : Bool :=
  decide (0 ≤ t) && (decide (t < len) || (endOk && decide (t = len)))

/-- A jump, call or return target, checked against the buffer before anything is committed (46 R311, R312). -/
def State.checkTarget (s : State) (t : Int) : Except Failure Nat :=
  if inBounds s.targetEndOk s.program.length t then .ok t.toNat else .error (.outOfBounds t)

/-- The word at the instruction pointer, `Fetch(ip)` (10 R37). -/
def State.fetch (s : State) : Option IWord := s.program[s.ip]?

/-- The pointer advanced past the fetched word (10 R31). -/
def State.advance (s : State) : State := { s with ip := s.ip + 1 }

/-! ### Host interface (46 R324 to R328, D33) -/

/-- Output events appended. -/
def State.emit (s : State) (evs : List OutEvent) : State := { s with outputs := s.outputs ++ evs }

/-- A free value and the state with its counter advanced (log 17). -/
def State.takeFree (s : State) : Word × State := (Config.freeWord s.freeCount, { s with freeCount := s.freeCount + 1 })

/-- `HostInput()` (46 R324): the next value the host has supplied; when none is queued, a free value (log 18). -/
def State.takeInput (s : State) : Word × State :=
  match s.inputs with
  | v :: rest => (v, { s with inputs := rest })
  | [] => s.takeFree

/-- A register whose new value the spec leaves unspecified: a free value (93 U3, U4). -/
def State.setFree (s : State) (r : Reg) : State := s.takeFree.2.setReg r s.takeFree.1

/-- The snapshot `dump` prints (46 R328). -/
def State.snapshot (s : State) : Snapshot := ⟨s.regs, s.ip, s.flags, s.valueStack, s.callStack⟩

/-! ### Taking a failure (60 R368, R369) -/

/-- The engine Faulted with a failure: nothing else is written, `ip` keeps the value after the fetch advance. -/
def State.raise (s : State) (f : Failure) : State := { s with run := .faulted f }

/-- How a handler ends: with the state it computed, or Faulted in the state it started from, so that a faulting handler has written
nothing (45 head, 60 R369). -/
def State.complete (s : State) (r : Except Failure State) : Host.Outcome State Fault Refusal :=
  match r with
  | .ok t => .next t
  | .error f => .next (s.raise f)

end Sys2Proof.Machine
end

