-- ==== Sys2Proof/Machine/Operands.lean ====
section
/-! DEFINITION. Operand forms and the arithmetic of the handlers: constants, effective addresses, jump targets, and the 64-bit
operations (45 R271 to R284, 46 R311, R321). -/

namespace Sys2Proof.Machine

/-- The constant of `ldc`, sign-extended to 64 bits (45 R271, 30 R87). -/
def constant (imm : Int) : Word := BitVec.ofInt 64 imm

/-- The effective address (46 R321): a register read as a signed cell index, checked against the RAM size. -/
def effectiveAddress (x : Word) : Except Failure Nat :=
  if 0 ≤ x.toInt ∧ x.toInt < ramCells then .ok x.toInt.toNat else .error (.outOfBounds x.toInt)

/-- The target of a relative jump or call: the already advanced pointer plus the offset, in integers (46 R311). -/
def State.relTarget (s : State) (off : Int) : Except Failure Nat := s.checkTarget ((s.ip : Int) + off)

/-- The bits of a square root from the highest down: `r` grows by `2 ^ k` while its square does not pass `n`. -/
def isqrtFrom (n : Nat) : Nat → Nat → Nat
  | 0, r => r
  | k + 1, r => if (r + 2 ^ k) * (r + 2 ^ k) ≤ n then isqrtFrom n k (r + 2 ^ k) else isqrtFrom n k r

/-- `isqrt` (45 R272): the largest integer whose square is at most `n`, for `n` below 2^64. -/
def isqrt (n : Nat) : Nat := isqrtFrom n 32 0

/-- The wrapped sum (45 R275). -/
def addWord (a b : Word) : Word := BitVec.ofInt 64 (a.toInt + b.toInt)

/-- The wrapped difference, left minus right (45 R276). -/
def subWord (a b : Word) : Word := BitVec.ofInt 64 (a.toInt - b.toInt)

/-- The wrapped product (45 R277). -/
def mulWord (a b : Word) : Word := BitVec.ofInt 64 (a.toInt * b.toInt)

/-- The quotient rounded toward zero (45 R274, R278). -/
def divWord (a b : Word) : Word := BitVec.ofInt 64 (a.toInt.tdiv b.toInt)

/-- The remainder, with the sign of the dividend (45 R274, R279). -/
def modWord (a b : Word) : Word := BitVec.ofInt 64 (a.toInt - a.toInt.tdiv b.toInt * b.toInt)

/-- The operands whose quotient is not representable: -2^63 by -1 (45 R278, R279, 93 U3). -/
def divCorner (a b : Word) : Bool := decide (a.toInt = -(2 ^ 63)) && decide (b.toInt = -1)

/-- The left shift of the unsigned pattern (45 R280). -/
def shlWord (v : Word) (n : Nat) : Word := BitVec.ofNat 64 (v.toNat * 2 ^ n)

/-- The logical right shift of the unsigned pattern (45 R281). -/
def shrWord (v : Word) (n : Nat) : Word := BitVec.ofNat 64 (v.toNat / 2 ^ n)

/-- A register computed from one source register. -/
def State.unary (s : State) (f : Word → Word) (rd rn : Reg) : State := s.setReg rd (f (s.getReg rn))

/-- A register computed from two source registers, both read before the destination is written (45 R274). -/
def State.binary (s : State) (f : Word → Word → Word) (rd rl rr : Reg) : State :=
  s.setReg rd (f (s.getReg rl) (s.getReg rr))

/-- Division and remainder (45 R278, R279): a zero divisor raises `DivisionByZero`, the unspecified corner takes a free value, every
other pair of operands the given result. -/
def State.divide (s : State) (f : Word → Word → Word) (rd rl rr : Reg) : Except Failure State :=
  if s.getReg rr = 0 then .error .divisionByZero
  else if divCorner (s.getReg rl) (s.getReg rr) then .ok (s.setFree rd)
  else .ok (s.binary f rd rl rr)

/-- Shifts (45 R280, R281): an amount of 64 or more, read as unsigned, takes a free value. -/
def State.shift (s : State) (f : Word → Nat → Word) (rd rl rr : Reg) : State :=
  if 64 ≤ (s.getReg rr).toNat then s.setFree rd else s.setReg rd (f (s.getReg rl) (s.getReg rr).toNat)

/-- The events `draw` emits for `n` cells from `base` (46 R327): each cell, and a line end after every `h` cells. -/
def drawEvents (m : Memory) (base h n : Nat) : List OutEvent :=
  (List.range n).flatMap (fun k =>
    .cell (decide (m.read (base + k) ≠ 0)) :: (if (k + 1) % h = 0 then [.newline] else []))

/-- The region `draw` shows, checked in cells against the RAM size (46 R327, D37): its first cell. -/
def drawBase (x : Word) (n : Nat) : Except Failure Nat :=
  if 0 ≤ x.toInt ∧ x.toInt + n ≤ ramCells then .ok x.toInt.toNat else .error (.outOfBounds x.toInt)

end Sys2Proof.Machine
end

