-- ==== Sys2Proof/Machine/Arith.lean ====
section
/-! DEFINITION. Arithmetic: `sqrt`, `add`, `sub`, `mul`, `div`, `mod` (45, sections 2 to 4). -/

namespace Sys2Proof.Machine

/-- `sqrt rd rn` (45 R272): the exact floor of the root (D38); a negative source faults. -/
def execSqrt (rd rn : Reg) (s : State) : Host.Outcome State Fault Refusal :=
  s.complete
    (if (s.getReg rn).toInt < 0 then .error (.negativeSquareRoot (s.getReg rn).toInt)
     else .ok (s.unary (fun x => BitVec.ofNat 64 (isqrt x.toNat)) rd rn))

/-- `add rd rl rr` (45 R275). -/
def execAdd (rd rl rr : Reg) (s : State) : Host.Outcome State Fault Refusal := .next (s.binary addWord rd rl rr)

/-- `sub rd rl rr` (45 R276). -/
def execSub (rd rl rr : Reg) (s : State) : Host.Outcome State Fault Refusal := .next (s.binary subWord rd rl rr)

/-- `mul rd rl rr` (45 R277). -/
def execMul (rd rl rr : Reg) (s : State) : Host.Outcome State Fault Refusal := .next (s.binary mulWord rd rl rr)

/-- `div rd rl rr` (45 R278). -/
def execDiv (rd rl rr : Reg) (s : State) : Host.Outcome State Fault Refusal := s.complete (s.divide divWord rd rl rr)

/-- `mod rd rl rr` (45 R279). -/
def execMod (rd rl rr : Reg) (s : State) : Host.Outcome State Fault Refusal := s.complete (s.divide modWord rd rl rr)

end Sys2Proof.Machine
end

