-- ==== Sys2Proof/Machine/Flags.lean ====
section
/-! DEFINITION. The flags: what a compare writes, what a condition reads, and the rendering of the register as a number. -/

namespace Sys2Proof.Machine

/-- The flags after comparing `a` with `b`, signed; all three are overwritten (45 R285). -/
def compareFlags (a b : Word) : Flags := ⟨decide (a = b), decide (a.toInt < b.toInt), false⟩

/-- Whether a condition holds of the flags (46 R313, D28). -/
def condHolds (c : Cond) (f : Flags) : Bool :=
  match c with
  | .always => true
  | .equal => f.e
  | .notEqual => !f.e
  | .greaterOrEqual => !f.l
  | .greater => !f.l && !f.e
  | .lessOrEqual => f.l || f.e
  | .less => f.l

/-- The flags register as a number under the reference `FLAG_POS`: E bit 0, L bit 1, O bit 2 (10 R32, D27). No instruction exposes it. -/
def flagBits (f : Flags) : BitVec 3 := BitVec.ofBool f.o ++ BitVec.ofBool f.l ++ BitVec.ofBool f.e

end Sys2Proof.Machine
end

