-- ==== Sys2Proof/Machine/Compare.lean ====
section
/-! DEFINITION. Compare: `cmp` (45, section 5). -/

namespace Sys2Proof.Machine

/-- `cmp rd rn` (45 R285): the register in the `rd` slot is the left operand; no register is written (D32). -/
def execCmp (rd rn : Reg) (s : State) : Host.Outcome State Fault Refusal :=
  .next { s with flags := compareFlags (s.getReg rd) (s.getReg rn) }

end Sys2Proof.Machine
end

