-- ==== Sys2Proof/Machine/Control.lean ====
section
/-! DEFINITION. Control transfer: `jmp`, `call`, `ret` (46, sections 2 and 3). -/

namespace Sys2Proof.Machine

/-- `jmp[.cond] off` (46 R311): a reserved condition faults whether or not a jump would be taken; an untaken jump does not check its
target. -/
def execJmp (cond : Fin 32) (off : Int) (s : State) : Host.Outcome State Fault Refusal :=
  s.complete
    (match condOfCode cond.val with
     | none => .error (.badCondition cond.val)
     | some c =>
       if condHolds c s.flags then do
         let t ← s.relTarget off
         .ok { s with ip := t }
       else .ok s)

/-- `call off` (46 R316): the capacity is tested first, then the target; the condition slot is ignored (D19). -/
def execCall (_cond : Fin 32) (off : Int) (s : State) : Host.Outcome State Fault Refusal :=
  s.complete do
    s.callRoom
    let t ← s.relTarget off
    .ok { s with callStack := s.ip :: s.callStack, ip := t }

/-- `ret` (46 R318). -/
def execRet (s : State) : Host.Outcome State Fault Refusal :=
  s.complete do
    let top ← s.topCall
    let t ← s.checkTarget top
    .ok { s with callStack := s.callStack.tail, ip := t }

end Sys2Proof.Machine
end

