-- ==== Sys2Proof/Machine/DataMove.lean ====
section
/-! DEFINITION. Data movement: `mov`, `ldc` (45, section 1). -/

namespace Sys2Proof.Machine

/-- `mov rd rn` (45 R270). -/
def execMov (rd rn : Reg) (s : State) : Host.Outcome State Fault Refusal := .next (s.unary (fun x => x) rd rn)

/-- `ldc rd $imm` (45 R271). -/
def execLdc (rd : Reg) (imm : Int) (s : State) : Host.Outcome State Fault Refusal := .next (s.setReg rd (constant imm))

end Sys2Proof.Machine
end

