-- ==== Sys2Proof/Machine/InOut.lean ====
section
/-! DEFINITION. Input and output: `input`, `print`, `scrhw`, `draw` (46, section 6). -/

namespace Sys2Proof.Machine

/-- `input rd` (46 R324): the host's value, a free input of the step. -/
def execInput (rd : Reg) (s : State) : Host.Outcome State Fault Refusal := .next (s.takeInput.2.setReg rd s.takeInput.1)

/-- `print rd` (46 R325). -/
def execPrint (rd : Reg) (s : State) : Host.Outcome State Fault Refusal := .next (s.emit [.int (s.getReg rd)])

/-- `scrhw rd rn` (46 R326): the width is written second. -/
def execScrhw (rd rn : Reg) (s : State) : Host.Outcome State Fault Refusal :=
  .next ((s.setReg rd (BitVec.ofNat 64 s.screenH)).setReg rn (BitVec.ofNat 64 s.screenW))

/-- `draw rd` (46 R327): nothing is output when the region does not lie in the RAM. -/
def execDraw (rd : Reg) (s : State) : Host.Outcome State Fault Refusal :=
  s.complete do
    let base ← drawBase (s.getReg rd) (s.screenH * s.screenW)
    .ok (s.emit (drawEvents s.ram base s.screenH (s.screenH * s.screenW)))

end Sys2Proof.Machine
end

