-- ==== Sys2Proof/Machine/LoadStore.lean ====
section
/-! DEFINITION. Loads and stores: `ldm`, `stm` (46, section 5). The register in the `rd` slot is the address in both (D32). -/

namespace Sys2Proof.Machine

/-- `ldm rd rn` (46 R322): the loaded value goes to the register in the `rn` slot. -/
def execLdm (rd rn : Reg) (s : State) : Host.Outcome State Fault Refusal :=
  s.complete do
    let ea ← effectiveAddress (s.getReg rd)
    .ok (s.setReg rn (s.ram.read ea))

/-- `stm rd rn` (46 R323). -/
def execStm (rd rn : Reg) (s : State) : Host.Outcome State Fault Refusal :=
  s.complete do
    let ea ← effectiveAddress (s.getReg rd)
    .ok (s.storeCell ea (s.getReg rn))

end Sys2Proof.Machine
end

