-- ==== Sys2Proof/Machine/Logic.lean ====
section
/-! DEFINITION. Bitwise operations and shifts: `not`, `shl`, `shr`, `or`, `xor`, `and` (45 R273, R280 to R284). -/

namespace Sys2Proof.Machine

/-- `not rd rn` (45 R273). -/
def execNot (rd rn : Reg) (s : State) : Host.Outcome State Fault Refusal := .next (s.unary (fun x => ~~~x) rd rn)

/-- `shl rd rl rr` (45 R280). -/
def execShl (rd rl rr : Reg) (s : State) : Host.Outcome State Fault Refusal := .next (s.shift shlWord rd rl rr)

/-- `shr rd rl rr` (45 R281). -/
def execShr (rd rl rr : Reg) (s : State) : Host.Outcome State Fault Refusal := .next (s.shift shrWord rd rl rr)

/-- `or rd rl rr` (45 R282). -/
def execOr (rd rl rr : Reg) (s : State) : Host.Outcome State Fault Refusal := .next (s.binary (fun a b => a ||| b) rd rl rr)

/-- `xor rd rl rr` (45 R283). -/
def execXor (rd rl rr : Reg) (s : State) : Host.Outcome State Fault Refusal := .next (s.binary (fun a b => a ^^^ b) rd rl rr)

/-- `and rd rl rr` (45 R284). -/
def execAnd (rd rl rr : Reg) (s : State) : Host.Outcome State Fault Refusal := .next (s.binary (fun a b => a &&& b) rd rl rr)

end Sys2Proof.Machine
end

