-- ==== Sys2Proof/Machine/Stack.lean ====
section
/-! DEFINITION. The value stack: `pushr`, `popr` (46, section 4). -/

namespace Sys2Proof.Machine

/-- `pushr rd` (46 R319). -/
def execPushr (rd : Reg) (s : State) : Host.Outcome State Fault Refusal := .next (s.pushValue (s.getReg rd))

/-- `popr rd` (46 R320). -/
def execPopr (rd : Reg) (s : State) : Host.Outcome State Fault Refusal :=
  s.complete do
    let (v, t) ← s.popValue
    .ok (t.setReg rd v)

end Sys2Proof.Machine
end

