-- ==== Sys2Proof/Machine/System.lean ====
section
/-! DEFINITION. System instructions: `dump`, `halt` (46, section 7). -/

namespace Sys2Proof.Machine

/-- `dump` (46 R328): one output event carrying the snapshot; the machine state is not altered. -/
def execDump (s : State) : Host.Outcome State Fault Refusal := .next (s.emit [.dump s.snapshot])

/-- `halt` (46 R329). -/
def execHalt (s : State) : Host.Outcome State Fault Refusal := .next { s with run := .halted }

end Sys2Proof.Machine
end

