-- ==== Sys2Proof/Machine/Dispatch.lean ====
section
/-! DEFINITION. The dispatch of an instruction to its meaning (43 R192, 46 R310). The state's `ip` is already advanced (10 R31). -/

namespace Sys2Proof.Machine

/-- The meaning of an instruction. -/
def exec (i : Instr) (s : State) : Host.Outcome State Fault Refusal :=
  match i with
  | .mov rd rn => Sys2Proof.Machine.execMov rd rn s
  | .ldc rd imm => Sys2Proof.Machine.execLdc rd imm s
  | .jmp cond off => Sys2Proof.Machine.execJmp cond off s
  | .call cond off => Sys2Proof.Machine.execCall cond off s
  | .sqrt rd rn => Sys2Proof.Machine.execSqrt rd rn s
  | .not rd rn => Sys2Proof.Machine.execNot rd rn s
  | .add rd rl rr => Sys2Proof.Machine.execAdd rd rl rr s
  | .sub rd rl rr => Sys2Proof.Machine.execSub rd rl rr s
  | .mul rd rl rr => Sys2Proof.Machine.execMul rd rl rr s
  | .div rd rl rr => Sys2Proof.Machine.execDiv rd rl rr s
  | .mod rd rl rr => Sys2Proof.Machine.execMod rd rl rr s
  | .shl rd rl rr => Sys2Proof.Machine.execShl rd rl rr s
  | .shr rd rl rr => Sys2Proof.Machine.execShr rd rl rr s
  | .or rd rl rr => Sys2Proof.Machine.execOr rd rl rr s
  | .xor rd rl rr => Sys2Proof.Machine.execXor rd rl rr s
  | .and rd rl rr => Sys2Proof.Machine.execAnd rd rl rr s
  | .cmp rd rn => Sys2Proof.Machine.execCmp rd rn s
  | .ret => Sys2Proof.Machine.execRet s
  | .pushr rd => Sys2Proof.Machine.execPushr rd s
  | .popr rd => Sys2Proof.Machine.execPopr rd s
  | .ldm rd rn => Sys2Proof.Machine.execLdm rd rn s
  | .stm rd rn => Sys2Proof.Machine.execStm rd rn s
  | .input rd => Sys2Proof.Machine.execInput rd s
  | .print rd => Sys2Proof.Machine.execPrint rd s
  | .scrhw rd rn => Sys2Proof.Machine.execScrhw rd rn s
  | .draw rd => Sys2Proof.Machine.execDraw rd s
  | .dump => Sys2Proof.Machine.execDump s
  | .halt => Sys2Proof.Machine.execHalt s

end Sys2Proof.Machine
end

