-- ==== Sys2Proof/Machine/Engine.lean ====
section
/-! DEFINITION. One step of the engine, over any configuration of the codec (46 R310, R330). -/

namespace Sys2Proof.Machine

/-- One step at the configuration `C` (46 R310, R330): the run loop's test for the end of the buffer (implicit halt), else fetch, advance,
decode and the handler. A word that does not decode faults the engine (30 R94). -/
def engineStep (C : Codec) (s : State) : Host.Outcome State Fault Refusal :=
  match s.run with
  | .halted => .fault .notRunning
  | .faulted _ => .fault .notRunning
  | .running =>
    if s.ip = s.program.length then .next { s with run := .halted }
    else
      match s.fetch with
      | none => .fault .ipBeyondBuffer
      | some w =>
        match decodeWith C w with
        | .error f => .next (s.advance.raise f)
        | .ok i => exec i s.advance

end Sys2Proof.Machine
end

