-- ==== Sys2Proof/Machine/Step.lean ====
section
/-! DEFINITION. One step of the engine, and the placing of a word where the next fetch finds it. -/

namespace Sys2Proof.Machine

/-- One step of the machine: the engine at the reference configuration. -/
def step (s : State) : Host.Outcome State Fault Refusal := engineStep refCodec s

/-- `s` Running with the word of the given bits at index `ip` of its instruction buffer, which is lengthened as far as that takes
(log 6). -/
def State.withFetchWord (s : State) (nbits w : Nat) : State :=
  { s with
    program := (s.program ++ List.replicate (s.ip + 1 - s.program.length) 0).set s.ip (BitVec.ofNat 32 (w % 2 ^ nbits))
    run := .running }

end Sys2Proof.Machine
end

