-- ==== Sys2Proof/Machine/Loader.lean ====
section
/-! DEFINITION. The binary object and the loading of a program (20 R50, R54, 60 R362, 70 R393, R394). -/

namespace Sys2Proof.Machine

/-- The words of a binary object, four little-endian bytes each (20 R50); a last partial word is left out here and refused by
`loadWords`. -/
def wordsOfBytes : List Byte → List IWord
  | b0 :: b1 :: b2 :: b3 :: rest => wordOfBytes b0 b1 b2 b3 :: wordsOfBytes rest
  | _ => []

/-- The bytes of a binary object: its words in order, no header, no padding (44 R251). -/
def bytesOfWords (ws : List IWord) : List Byte := ws.flatMap bytesOfWord

/-- The load of a binary file: a length that is not a multiple of 4 is refused (20 R54, 60 R362, D35). -/
def loadWords (bytes : List Byte) : Except Failure (List IWord) :=
  if bytes.length % 4 = 0 then .ok (wordsOfBytes bytes) else .error (.prematureEOF bytes.length)

/-- The machine after construction and load (70 R393): registers, RAM, parameters and host input are arbitrary, the rest is as
the reset table says. -/
def State.boot (regs : Vector Word 32) (ram : Memory) (screenH screenW : Nat) (targetEndOk : Bool) (inputs : List Word)
    (program : List IWord) : State :=
  { State.reset with
    regs := regs, ram := ram, screenH := screenH, screenW := screenW, targetEndOk := targetEndOk, inputs := inputs, program := program }

/-- A constructed machine with the program of a binary file handed over (70 R394, steps 2 and 3). The words are not decoded. -/
def State.loadBinary (s : State) (bytes : List Byte) : Except Failure State := do
  let ws ← loadWords bytes
  .ok { s with program := ws }

end Sys2Proof.Machine
end

