-- ==== Sys2Proof/Machine/Assembler.lean ====
section
/-! DEFINITION. The text side, reading: tokens, operands, text-decode, labels, and the observable result of the two-pass assembler
(44 R230 to R241, R246 to R251). `reg31` is the open parameter `REG31_NAME` (44 R235; log 33). -/

namespace Sys2Proof.Machine

/-! ### Lines and tokens (44 R231, R232) -/

/-- White space inside a line: space and tab (44 R231, 93 G1; log 31). -/
def isSpace (c : Char) : Bool := c == ' ' || c == '\t'

/-- A line without its comment, which begins at the first `;` or `#` (44 R231). -/
def stripComment (line : Text) : Text := line.takeWhile (fun c => !(c == ';' || c == '#'))

/-- The non-empty pieces of a text split at white space; `cur` holds the current piece, reversed. -/
def splitSpaces : Text → Text → List Text
  | [], cur => if cur.isEmpty then [] else [cur.reverse]
  | c :: rest, cur =>
    if isSpace c then (if cur.isEmpty then splitSpaces rest [] else cur.reverse :: splitSpaces rest [])
    else splitSpaces rest (c :: cur)

/-- The tokens of a line (44 R231). -/
def tokenize (line : Text) : List Text := splitSpaces (stripComment line) []

/-- What a line is (44 R232). -/
inductive Line where
  | blank
  | label (name : Text)
  | badLabel (given : Nat)
  | instruction (tokens : List Text)
  deriving DecidableEq, Repr

/-- The name a label declaration token `.name:` declares (44 R233). DESIGN CHOICE (log 42): the characters of a name are not stated, and every
character a token can hold is accepted, an inner `.` or `:` among them, so `.a:b:` declares `a:b`. -/
def labelDeclaration (tok : Text) : Option Text :=
  match tok with
  | '.' :: rest => if rest.getLast? = some ':' then some rest.dropLast else none
  | _ => none

/-- A tokenized line classified (44 R232); a label declaration followed by more tokens is refused (D24 c). -/
def classify (tokens : List Text) : Line :=
  match tokens with
  | [] => .blank
  | [tok] =>
    match labelDeclaration tok with
    | some name => .label name
    | none => .instruction [tok]
  | tok :: rest =>
    match labelDeclaration tok with
    | some _ => .badLabel (rest.length + 1)
    | none => .instruction (tok :: rest)

/-! ### Operand tokens (44 R235 to R237) -/

/-- The value of a digit, `0` to `9`, `a` to `f`, `A` to `F`. -/
def digitValue (c : Char) : Option Nat :=
  let n := c.toNat
  if 48 ≤ n ∧ n ≤ 57 then some (n - 48)
  else if 97 ≤ n ∧ n ≤ 102 then some (n - 87)
  else if 65 ≤ n ∧ n ≤ 70 then some (n - 55)
  else none

/-- The value of a run of digits of a base, continued from `acc`; the whole text must be digits. -/
def digitsValue (base : Nat) : Text → Nat → Option Nat
  | [], acc => some acc
  | c :: rest, acc =>
    match digitValue c with
    | some d => if d < base then digitsValue base rest (acc * base + d) else none
    | none => none

/-- An unsigned literal (44 R236, 93 G2): `0x` or `0X` hexadecimal, a leading `0` octal, else decimal. -/
def magnitude : Text → Option Nat
  | [] => none
  | ['0'] => some 0
  | '0' :: 'x' :: d :: ds => digitsValue 16 (d :: ds) 0
  | '0' :: 'X' :: d :: ds => digitsValue 16 (d :: ds) 0
  | '0' :: ds => digitsValue 8 ds 0
  | ds => digitsValue 10 ds 0

/-- An integer literal with an optional sign (44 R236). -/
def integerLiteral : Text → Option Int
  | '-' :: ds => (magnitude ds).map (fun n => -(n : Int))
  | '+' :: ds => (magnitude ds).map (fun n => (n : Int))
  | ds => (magnitude ds).map (fun n => (n : Int))

/-- A register token (44 R235): `r0` to `r30` without leading zeros, or the reserved name of register 31. -/
def registerToken (reg31 : Text) (tok : Text) : Except Failure Nat :=
  if tok = reg31 then .ok 31
  else
    match tok with
    | ['r', '0'] => .ok 0
    | 'r' :: '0' :: _ => .error (.badToken tok)
    | 'r' :: d :: ds =>
      match digitsValue 10 (d :: ds) 0 with
      | some n => if n ≤ 30 then .ok n else .error (.badToken tok)
      | none => .error (.badToken tok)
    | _ => .error (.badToken tok)

/-- An immediate token `$<integer>` (44 R236). -/
def immediateToken (tok : Text) : Except Failure Int :=
  match tok with
  | '$' :: ds =>
    match integerLiteral ds with
    | some z => .ok z
    | none => .error (.badToken tok)
  | _ => .error (.badToken tok)

/-- The name of a label reference token `.name` (44 R237: no trailing colon). -/
def labelReference (tok : Text) : Option Text :=
  match tok with
  | '.' :: name => if name.getLast? = some ':' then none else some name
  | _ => none

/-- The length of a label name, 1 to 64 characters (44 R233, 60 R355). -/
def checkLabelName (name : Text) : Except Failure Unit :=
  if name.length < 1 ∨ 64 < name.length then .error (.labelLength name.length) else .ok ()

/-- The operand of a jump-shaped command: a literal offset, or a label reference whose offset `look` gives (44 R237, R246). DEDUCED (log 32):
44 R233 states the limit on the length of a name at the declaration, and by 60 R355 text-decode holds a reference to it too, here before
the name is looked up. -/
def offsetToken (look : Text → Except Failure Int) (tok : Text) : Except Failure Int :=
  match labelReference tok with
  | some name => do
    checkLabelName name
    look name
  | none => immediateToken tok

/-! ### The mnemonic token (44 R238, R239) -/

/-- The suffix of a condition (44 R239, D22); `always` has none. -/
def condSuffix : Cond → Text
  | .always => []
  | .equal => ['e', 'q']
  | .notEqual => ['n', 'e']
  | .greaterOrEqual => ['g', 'e']
  | .greater => ['g', 't']
  | .lessOrEqual => ['l', 'e']
  | .less => ['l', 't']

/-- The condition a suffix names; the empty suffix names none. -/
def condOfSuffix (suffix : Text) : Option Cond :=
  [Cond.equal, .notEqual, .greaterOrEqual, .greater, .lessOrEqual, .less].find? (fun c => condSuffix c == suffix)

/-- A mnemonic token split at its first `.` (44 R238): the head, and the tail if there is a dot. -/
def splitMnemonic (tok : Text) : Text × Option Text :=
  match tok.dropWhile (fun c => c != '.') with
  | [] => (tok, none)
  | _ :: tail => (tok.takeWhile (fun c => c != '.'), some tail)

/-- The condition number a mnemonic token's suffix gives a command (44 R238, R239); only `jmp` takes a suffix. -/
def suffixCode (h : Handler) (tok : Text) (suffix : Option Text) : Except Failure Nat :=
  match suffix with
  | none => .ok 0
  | some s =>
    if h = .jmp then
      match condOfSuffix s with
      | some c => .ok c.code
      | none => .error (.badToken tok)
    else .error (.badToken tok)

/-! ### Text-decode (44 R240, R241) -/

/-- The operand tokens of a command's line, in the order of the shape's fields (44 R241). The token count is checked first (R240). -/
def decodeOperands (reg31 : Text) (look : Text → Except Failure Int) (c : Command) (cond : Nat) (ops : List Text) :
    Except Failure DecodedInstr :=
  match c.shape, ops with
  | .triple, [a, b, d] => do
    .ok (.triple c.opcode (← registerToken reg31 a) (← registerToken reg31 b) (← registerToken reg31 d))
  | .double, [a, b] => do .ok (.double c.opcode (← registerToken reg31 a) (← registerToken reg31 b))
  | .single, [a] => do .ok (.single c.opcode (← registerToken reg31 a))
  | .noarg, [] => .ok (.noarg c.opcode)
  | .ldc, [a, b] => do .ok (.ldc c.opcode (← registerToken reg31 a) (← immediateToken b))
  | .move, [a, b] => do .ok (.move c.opcode (← registerToken reg31 a) (← registerToken reg31 b))
  | .jump, [a] => do .ok (.jump c.opcode cond (← offsetToken look a))
  | sh, _ => .error (.arityMismatch (ops.length + 1) (sh.arity + 1))

/-- Text-decode: the tokens of an instruction line to a decoded instruction (44 R238 to R241). -/
def textDecode (C : Codec) (reg31 : Text) (look : Text → Except Failure Int) (tokens : List Text) : Except Failure DecodedInstr :=
  match tokens with
  | [] => .error (.arityMismatch 0 1)
  | m :: ops => do
    let i ← lookupMnemonic C (splitMnemonic m).1
    match C.cmdTable[i]? with
    | none => .error (.unknownMnemonic (splitMnemonic m).1)
    | some c => do
      let cond ← suffixCode c.handler m (splitMnemonic m).2
      decodeOperands reg31 look c cond ops

/-! ### Labels and the two passes (44 R233, R234, R246 to R250) -/

/-- The label table and the number of instructions emitted so far. -/
structure AsmState where
  labels : List (Text × Nat)
  count : Nat
  deriving DecidableEq, Repr

/-- The value of a label (44 R234). -/
def labelValue (labels : List (Text × Nat)) (name : Text) : Option Nat := (labels.find? (fun p => p.1 == name)).map (fun p => p.2)

/-- `target_index − current_index − 1` (44 R246). -/
def labelOffset (target current : Nat) : Int := (target : Int) - (current : Int) - 1

/-- Pass one's reading of a reference: an unknown label is tolerated and its operand discarded (44 R247). -/
def lookTolerant (st : AsmState) (name : Text) : Except Failure Int :=
  match labelValue st.labels name with
  | some t => .ok (labelOffset t st.count)
  | none => .ok 0

/-- Pass two's reading of a reference: an unknown label is fatal (44 R248). -/
def lookStrict (labels : List (Text × Nat)) (current : Nat) (name : Text) : Except Failure Int :=
  match labelValue labels name with
  | some t => .ok (labelOffset t current)
  | none => .error (.undefinedLabel name)

/-- A declaration bound to the index of the next emitted instruction (44 R233, R234). -/
def declareLabel (st : AsmState) (name : Text) : Except Failure AsmState := do
  checkLabelName name
  match labelValue st.labels name with
  | some _ => .error (.duplicateLabel name)
  | none => .ok { st with labels := (name, st.count) :: st.labels }

/-- One line of pass one (44 R247). -/
def passOneLine (C : Codec) (reg31 : Text) (st : AsmState) (line : Text) : Except Failure AsmState :=
  match classify (tokenize line) with
  | .blank => .ok st
  | .label name => declareLabel st name
  | .badLabel n => .error (.arityMismatch n 1)
  | .instruction tokens => do
    let d ← textDecode C reg31 (lookTolerant st) tokens
    let _ ← encodeWord C d
    .ok { st with count := st.count + 1 }

/-- Pass one from line number `n`; a failure carries its 1-based line number (44 R230). -/
def passOne (C : Codec) (reg31 : Text) : Nat → AsmState → List Text → Except (Nat × Failure) AsmState
  | _, st, [] => .ok st
  | n, st, line :: rest =>
    match passOneLine C reg31 st line with
    | .error f => .error (n, f)
    | .ok st' => passOne C reg31 (n + 1) st' rest

/-- The word a line emits in pass two at an instruction index, if it emits one (44 R248). -/
def passTwoLine (C : Codec) (reg31 : Text) (labels : List (Text × Nat)) (index : Nat) (line : Text) : Except Failure (Option IWord) :=
  match classify (tokenize line) with
  | .blank => .ok none
  | .label _ => .ok none
  | .badLabel n => .error (.arityMismatch n 1)
  | .instruction tokens => do
    let d ← textDecode C reg31 (lookStrict labels index) tokens
    let w ← encodeWord C d
    .ok (some w)

/-- Pass two from line number `n` and instruction index `index`, with the complete label table (44 R248). -/
def passTwo (C : Codec) (reg31 : Text) (labels : List (Text × Nat)) :
    Nat → Nat → List Text → Except (Nat × Failure) (List IWord)
  | _, _, [] => .ok []
  | n, index, line :: rest =>
    match passTwoLine C reg31 labels index line with
    | .error f => .error (n, f)
    | .ok none => passTwo C reg31 labels (n + 1) index rest
    | .ok (some w) =>
      match passTwo C reg31 labels (n + 1) (index + 1) rest with
      | .error e => .error e
      | .ok ws => .ok (w :: ws)

/-- The observable result of the assembler (44 R249): the words of the instruction lines in order, or the first failure. -/
def assemble (C : Codec) (reg31 : Text) (lines : List Text) : Except (Nat × Failure) (List IWord) :=
  match passOne C reg31 1 ⟨[], 0⟩ lines with
  | .error e => .error e
  | .ok st => passTwo C reg31 st.labels 1 0 lines

/-- The assembler as a process: its binary output and its exit code (44 R251, 60 R366, R367). -/
def assembleFile (C : Codec) (reg31 : Text) (lines : List Text) : List Byte × Nat :=
  match assemble C reg31 lines with
  | .ok ws => (bytesOfWords ws, 0)
  | .error _ => ([], 1)

end Sys2Proof.Machine
end

