-- ==== Sys2Proof/Machine/Disassembler.lean ====
section
/-! DEFINITION. The text side, writing: canonical text (44 R242, R243) and the disassembler (43 R205, 60 R366, R367). -/

namespace Sys2Proof.Machine

/-- A natural number in decimal. -/
def decimal (n : Nat) : Text := Nat.toDigits 10 n

/-- A signed number in decimal, `-` for negatives and no `+` (44 R242). -/
def signedDecimal (z : Int) : Text := if z < 0 then '-' :: decimal z.natAbs else decimal z.natAbs

/-- A register in canonical text (44 R242). -/
def registerText (reg31 : Text) (n : Nat) : Text := if n = 31 then reg31 else 'r' :: decimal n

/-- An immediate or offset in canonical text (44 R242). -/
def immediateText (z : Int) : Text := '$' :: signedDecimal z

/-- The mnemonic token of a command with a condition slot (44 R242, R243): `jmp` shows its condition, no other command does. -/
def mnemonicText (c : Command) (cond : Nat) : Except Failure Text :=
  if c.handler = .jmp then
    match condOfCode cond with
    | none => .error (.badCondition cond)
    | some .always => .ok c.mnemonic
    | some k => .ok (c.mnemonic ++ '.' :: condSuffix k)
  else .ok c.mnemonic

/-- Tokens joined by single spaces (44 R242). -/
def joinTokens : List Text → Text
  | [] => []
  | [t] => t
  | t :: rest => t ++ ' ' :: joinTokens rest

/-- Text-encode: the tokens of the canonical line of a decoded instruction under its command (44 R242, R243). -/
def textTokens (reg31 : Text) (c : Command) (d : DecodedInstr) : Except Failure (List Text) :=
  match d with
  | .triple _ rd rl rr => .ok [c.mnemonic, registerText reg31 rd, registerText reg31 rl, registerText reg31 rr]
  | .double _ rd rn => .ok [c.mnemonic, registerText reg31 rd, registerText reg31 rn]
  | .single _ rd => .ok [c.mnemonic, registerText reg31 rd]
  | .noarg _ => .ok [c.mnemonic]
  | .ldc _ rd imm => .ok [c.mnemonic, registerText reg31 rd, immediateText imm]
  | .move _ rd rn => .ok [c.mnemonic, registerText reg31 rd, registerText reg31 rn]
  | .jump _ cond off => do
    let m ← mnemonicText c cond
    .ok [m, immediateText off]

/-- The canonical line of a word: `DECODE`, then the shape's text-encode (43 R205). -/
def disassembleWord (C : Codec) (reg31 : Text) (w : IWord) : Except Failure Text := do
  let d ← decodeWord C w
  match C.cmdTable[d.cmdIndex]? with
  | none => .error (.unknownOpcode (wordKey C w).1 (wordKey C w).2)
  | some c => do
    let toks ← textTokens reg31 c d.instr
    .ok (joinTokens toks)

/-- The disassembler: the lines it emits, and the failure that ended it, if any; lines already emitted stay emitted (60 R366). -/
def disassemble (C : Codec) (reg31 : Text) : List IWord → List Text × Option Failure
  | [] => ([], none)
  | w :: rest =>
    match disassembleWord C reg31 w with
    | .error f => ([], some f)
    | .ok line => (line :: (disassemble C reg31 rest).1, (disassemble C reg31 rest).2)

/-- The disassembler as a process: a file that does not load emits nothing; exit code 0, or 1 on a failure (60 R362, R367). -/
def disassembleFile (C : Codec) (reg31 : Text) (bytes : List Byte) : List Text × Nat :=
  match loadWords bytes with
  | .error _ => ([], 1)
  | .ok ws =>
    match disassemble C reg31 ws with
    | (lines, none) => (lines, 0)
    | (lines, some _) => (lines, 1)

end Sys2Proof.Machine
end

