-- ==== Sys2Proof/Machine/Executor.lean ====
section
/-! DEFINITION. The run loop and the executor around the machine (46 R330, 60 R366, R367, 70 R394). -/

namespace Sys2Proof.Machine

/-- The run loop at a configuration, for at most `k` model steps (46 R330): it stops at the first state from which there is no
step. A run need not end. -/
def runLoop (C : Codec) : Nat → State → State
  | 0, s => s
  | k + 1, s =>
    match engineStep C s with
    | .next t => runLoop C k t
    | .fault _ => s
    | .refused _ => s

/-- The exit code of the executor once the run has ended: 0 on Halted, 1 on Faulted (60 R367). -/
def exitCode : RunState → Option Nat
  | .running => none
  | .halted => some 0
  | .faulted _ => some 1

/-- The numeric status of an ended run (60 R351, R368). -/
def runStatus : RunState → Option Status
  | .running => none
  | .halted => some .ok
  | .faulted f => some f.status

/-- What the executor shows of a run: the machine it ends with, its exit code, and the state dump a Faulted run sends to standard
error (60 R367, R369). -/
structure ExecutorResult where
  final : Option State
  exit : Option Nat
  stderrDump : Option Snapshot
  deriving DecidableEq, Repr

/-- The executor on a binary file, for at most `k` model steps: load, run, exit (70 R394). A file that does not load ends it with exit
code 1 and no step. -/
def executor (C : Codec) (k : Nat) (s : State) (bytes : List Byte) : ExecutorResult :=
  match s.loadBinary bytes with
  | .error _ => ⟨none, some 1, none⟩
  | .ok s0 =>
    let t := runLoop C k s0
    match t.run with
    | .faulted _ => ⟨some t, exitCode t.run, some t.snapshot⟩
    | .halted => ⟨some t, exitCode t.run, none⟩
    | .running => ⟨some t, exitCode t.run, none⟩

/-- The characters of an output event where the spec gives them: the cells and line ends of `draw` (46 R327), the decimal text of
`print` (46 R325, D33). The text of a `dump` is out of scope (00 R5 (d)). -/
def eventText : OutEvent → Option Text
  | .int v => some (signedDecimal v.toInt)
  | .cell true => some ['*', ' ']
  | .cell false => some ['.', ' ']
  | .newline => some ['\n']
  | .dump _ => none

end Sys2Proof.Machine
end

