-- ==== Sys2Proof/Safety.lean ====
section
/-! DEFINITION. The terms the claims use: the invariant of the machine, the frames, and what an instruction may write. -/

namespace Sys2Proof.Machine

/-- The invariant: the RAM is in canonical form, `ip` and every return index lie in `0 .. len` (10 R30), the call stack is within its
capacity (10 R36), `E` and `L` are never both set and `O` is never set (45 R285), and the screen constants are positive with a grid
that fits the RAM (92 D34). -/
abbrev State.Inv (s : State) : Prop :=
  s.ram.wf = true ∧ s.ip ≤ s.program.length ∧ (∀ t ∈ s.callStack, t ≤ s.program.length)
    ∧ s.callStack.length ≤ 1024 ∧ (s.flags.e && s.flags.l) = false ∧ s.flags.o = false
    ∧ 0 < s.screenH ∧ 0 < s.screenW ∧ s.screenH * s.screenW ≤ 1048576

/-- Whether the run has ended (60 R368). -/
def State.final (s : State) : Bool :=
  match s.run with
  | .running => false
  | .halted => true
  | .faulted _ => true

/-- `t` is `s` with register `rd` holding `v` and nothing else changed. -/
def State.RegResult (s t : State) (rd : Reg) (v : Word) : Prop :=
  t.getReg rd = v ∧ (∀ r, r ≠ rd → t.getReg r = s.getReg r) ∧ { t with regs := s.regs } = s

/-- `t` is `s` with register `rd` holding some value the spec leaves open, one more free value taken, and nothing else changed. -/
def State.RegFree (s t : State) (rd : Reg) : Prop :=
  (∀ r, r ≠ rd → t.getReg r = s.getReg r) ∧ { t with regs := s.regs, freeCount := s.freeCount } = s
    ∧ t.freeCount = s.freeCount + 1

/-- `t` is `s` Faulted with the failure `f` and nothing else changed. -/
def State.FaultedBy (s t : State) (f : Failure) : Prop := t = { s with run := .faulted f }

/-- The registers an instruction may write: its destinations. -/
def destinations : Instr → List Reg
  | .mov rd _ | .ldc rd _ | .sqrt rd _ | .not rd _ | .add rd _ _ | .sub rd _ _ | .mul rd _ _ | .div rd _ _ | .mod rd _ _
  | .shl rd _ _ | .shr rd _ _ | .or rd _ _ | .xor rd _ _ | .and rd _ _ | .popr rd | .input rd => [rd]
  | .ldm _ rn => [rn]
  | .scrhw rd rn => [rd, rn]
  | .jmp _ _ | .call _ _ | .cmp _ _ | .ret | .pushr _ | .stm _ _ | .print _ | .draw _ | .dump | .halt => []

/-- The RAM cell an instruction may store to: that of `stm`, at the address its meaning computes. -/
def storedCell (i : Instr) (s : State) : Option Nat :=
  match i with
  | .stm rd _ =>
    match effectiveAddress (s.getReg rd) with
    | .ok a => some a
    | .error _ => none
  | .mov _ _ | .ldc _ _ | .sqrt _ _ | .not _ _ | .add _ _ _ | .sub _ _ _ | .mul _ _ _ | .div _ _ _ | .mod _ _ _
  | .shl _ _ _ | .shr _ _ _ | .or _ _ _ | .xor _ _ _ | .and _ _ _ | .popr _ | .input _ | .ldm _ _ | .scrhw _ _
  | .jmp _ _ | .call _ _ | .cmp _ _ | .ret | .pushr _ | .print _ | .draw _ | .dump | .halt => none

end Sys2Proof.Machine
end

