-- ==== Sys2Proof/Certificates/Slice0/Obligations.lean ====
section
/-! DEFINITION. The statements about the model, from the numbered rules of the spec. -/

open Sys2Proof Sys2Proof.Machine

/-! ### The block: primitives -/

/-- 40 R112: outside the window `get_bitfield` fails with `DecodeError`; inside it the result is the unsigned value of the field's bits,
and the header bits do not matter. -/
def Obligations.GetBitfieldReadsTheField : Prop :=
  ∀ (L : HdrLayout) (w : IWord) (pos len : Nat),
    (24 < pos + len → ∃ f, getBitfield L w pos len = .error f ∧ f.status = .decodeError)
    ∧ (pos + len ≤ 24 → ∃ v, getBitfield L w pos len = .ok v ∧ v < 2 ^ len
        ∧ (∀ i, i < len → v.testBit i = (L.arg w).getLsbD (24 - pos - len + i))
        ∧ (L.Lawful → ∀ o e r, getBitfield L (L.build o e r (L.arg w)) pos len = .ok v))

/-- 40 section 3: `set_bitfield` checks the window, then the value (D11); otherwise exactly the bits of the field change. -/
def Obligations.SetBitfieldWritesOnlyTheField : Prop :=
  ∀ (L : HdrLayout) (w : IWord) (pos len value : Nat), L.Lawful →
    (24 < pos + len → ∃ f, setBitfield L w pos len value = .error f ∧ f.status = .decodeError)
    ∧ (pos + len ≤ 24 → 2 ^ len ≤ value → ∃ f, setBitfield L w pos len value = .error f ∧ f.status = .operandRangeError)
    ∧ (pos + len ≤ 24 → value < 2 ^ len → ∃ w', setBitfield L w pos len value = .ok w'
        ∧ L.opc w' = L.opc w ∧ L.ext w' = L.ext w ∧ L.rsv w' = L.rsv w
        ∧ ∀ i, i < 24 → (L.arg w').getLsbD i =
            if 24 - pos - len ≤ i ∧ i < 24 - pos then value.testBit (i - (24 - pos - len)) else (L.arg w).getLsbD i)

/-- 40 R118 (derived there from R112 to R117): the six laws of the bitfield primitives, `FieldLaws` for the plain ones with the window 24
and, as law 6, for the directive ones with the window 14. -/
def Obligations.BitfieldLaws : Prop :=
  ∀ L : HdrLayout, L.Lawful →
    FieldLaws L (getBitfield L) (setBitfield L) 24 ∧ FieldLaws L (getDirectiveBitfield L) (setDirectiveBitfield L) 14

/-- 40 R117: the directive write has the window 14, checks the window before the value, and cannot alter the directive opcode or the
base opcode. -/
def Obligations.DirectiveWriteSparesTheOpcode : Prop :=
  ∀ (L : HdrLayout) (w : IWord) (pos len value : Nat), L.Lawful →
    setDirectiveBitfield L w pos len value = setBitfield L w (pos + 10) len value
    ∧ (14 < pos + len → ∃ f, setDirectiveBitfield L w pos len value = .error f ∧ f.status = .decodeError)
    ∧ (pos + len ≤ 14 → 2 ^ len ≤ value → ∃ f, setDirectiveBitfield L w pos len value = .error f ∧ f.status = .operandRangeError)
    ∧ (pos + len ≤ 14 → value < 2 ^ len → ∃ w', setDirectiveBitfield L w pos len value = .ok w'
        ∧ getDirectiveOpcode L w' = getDirectiveOpcode L w ∧ L.opc w' = L.opc w)

/-- 41 section 3: both register codings read back what they wrote; head-bit mode sets `EXT` exactly for numbers of 16 and above, inline
mode leaves it; nothing else of the header changes. -/
def Obligations.RegisterCodecLaws : Prop :=
  ∀ (L : HdrLayout) (w : IWord) (pos n : Nat), L.Lawful → n < 32 →
    (pos + 4 ≤ 24 → ∃ w', setRegister L w pos true n = .ok w' ∧ getRegister L w' pos true = .ok n
        ∧ (L.ext w' = true ↔ 16 ≤ n) ∧ L.opc w' = L.opc w ∧ L.rsv w' = L.rsv w
        ∧ ∀ p, p < 24 → (p < pos ∨ pos + 4 ≤ p) → getBitfield L w' p 1 = getBitfield L w p 1)
    ∧ (pos + 5 ≤ 24 → ∃ w', setRegister L w pos false n = .ok w' ∧ getRegister L w' pos false = .ok n
        ∧ L.ext w' = L.ext w ∧ L.opc w' = L.opc w ∧ L.rsv w' = L.rsv w
        ∧ ∀ p, p < 24 → (p < pos ∨ pos + 5 ≤ p) → getBitfield L w' p 1 = getBitfield L w p 1)

/-! ### The block: shapes, lookups, multiplexers -/

/-- 43 R194: the lookup answers the index of the unique command with the key, and `UnknownOpcode` when there is none. -/
def Obligations.LookupFindsTheCommand : Prop :=
  ∀ (C : Codec) (o : Nat) (sp : Space), C.wf = true →
    (∀ i, lookupOpcode C o sp = .ok i ↔ ∃ c, C.cmdTable[i]? = some c ∧ c.opcode = o ∧ c.space = sp)
    ∧ ((∀ c ∈ C.cmdTable, ¬(c.opcode = o ∧ c.space = sp)) → lookupOpcode C o sp = .error (.unknownOpcode o sp))

/-- 42 section 3 (D16): every per-shape decoder answers, on every word, a valid decoded instruction of its own shape. -/
def Obligations.ShapeDecodersAreTotal : Prop :=
  ∀ (L : HdrLayout) (sh : Shape) (w : IWord),
    ∃ d, decodeShape L sh w = .ok d ∧ d.shape = sh ∧ d.valid = true

/-- 42 section 5: for every shape and every value representable in its fields, binary-decode of binary-encode gives the value back. -/
def Obligations.ShapeCodecRoundTrip : Prop :=
  ∀ (C : Codec) (d : DecodedInstr), C.layout.Lawful → d.valid = true →
    ∃ w, encodeShape C d = .ok w ∧ decodeShape C.layout d.shape w = .ok d ∧ canonical C d.shape w = true

/-- 42 R171: a field outside its range never yields a word; the status is `OperandRangeError`. -/
def Obligations.EncodersRefuseInvalidFields : Prop :=
  ∀ (C : Codec) (d : DecodedInstr), d.valid = false → ∃ f, encodeShape C d = .error f ∧ f.status = .operandRangeError

/-- 43 section 7: the multiplexers are inverse on the commands of the table, for every lawful layout and well-formed table, and a word is
rebuilt exactly when it is canonical. -/
def Obligations.MultiplexersRoundTrip : Prop :=
  ∀ (C : Codec), C.layout.Lawful → C.wf = true →
    (∀ (d : DecodedInstr) (i : Nat) (c : Command), d.valid = true → C.cmdTable[i]? = some c →
        c.opcode = d.opcode → c.shape = d.shape →
        ∃ w, encodeWord C d = .ok w ∧ decodeWord C w = .ok ⟨i, c.shape, d⟩)
    ∧ (∀ (w : IWord) (r : Decoded), decodeWord C w = .ok r →
        ∃ w', encodeWord C r.instr = .ok w' ∧ decodeWord C w' = .ok r ∧ (w' = w ↔ canonical C r.shape w = true))

/-- 43 section 6 (D16): `ENCODE` reports an unknown key first, then a wrong shape, then a field out of range. -/
def Obligations.EncodeChecksInOrder : Prop :=
  ∀ (C : Codec) (d : DecodedInstr), C.wf = true →
    ((∀ c ∈ C.cmdTable, ¬(c.opcode = d.opcode ∧ c.space = d.shape.space)) →
        encodeWord C d = .error (.unknownOpcode d.opcode d.shape.space))
    ∧ (∀ c ∈ C.cmdTable, c.opcode = d.opcode → c.space = d.shape.space → c.shape ≠ d.shape →
        encodeWord C d = .error (.shapeMismatch d.opcode d.shape c.shape))
    ∧ (∀ c ∈ C.cmdTable, c.opcode = d.opcode → c.shape = d.shape → d.valid = false →
        ∃ f, encodeWord C d = .error f ∧ f.status = .operandRangeError)

/-- 30 section 6 (D10; log 14): `DECODE` does not read the reserved header bit. -/
def Obligations.DecodeIgnoresTheReservedBit : Prop :=
  ∀ (C : Codec) (o : BitVec 6) (e r r' : Bool) (a : Arg), C.layout.Lawful →
    decodeWord C (C.layout.build o e r a) = decodeWord C (C.layout.build o e r' a)

/-- 30 sections 5 and 6 (reference table, log 11, log 12): the machine decodes exactly the words whose opcode bits are those of a row; every
other word is `UnknownOpcode`. -/
def Obligations.DecodeAcceptsExactlyTheTable : Prop :=
  ∀ (w : IWord),
    ((∃ i, decode w = .ok i) ↔
      ∃ c ∈ refTable,
        match c.space with
        | .base => w.toNat / 2 ^ 26 = c.opcode
        | .directive => w.toNat / 2 ^ 26 = 0 ∧ w.toNat / 2 ^ 14 % 2 ^ 10 = c.opcode)
    ∧ (∀ f, decode w = .error f → f.status = .unknownOpcode)

/-- 42 section 5, on the machine's own instructions (reference table, log 12): decode of encode of a well-formed instruction is that
instruction. -/
def Obligations.InstructionDecodeEncodeAgree : Prop :=
  ∀ i : Instr, i.wellFormed = true → ∃ w, encode i = .ok w ∧ decode w = .ok i

/-- 95 part 2 (reference values, log 11, log 12): words written out bit by bit decode to the instructions they stand for. -/
def Obligations.WrittenOutWordsDecode : Prop :=
  decode 0b00000000000000001100010001000011#32 = .ok (.add 1 2 3)
    ∧ decode 0b00000110000100111100000000000000#32 = .ok (.mov 17 30)
    ∧ decode 0b00001010000010000000000000000000#32 = .ok (.ldc 16 (-524288))
    ∧ decode 0b00001100000111111111111111111101#32 = .ok (.jmp 1 (-3))
    ∧ decode 0b00000000000001000100010001000000#32 = .ok (.ldm 1 2)
    ∧ decode 0b00000010000000111100000000000000#32 = .ok (.pushr 16)
    ∧ decode 0b00000000000001100000000000000000#32 = .ok .halt

/-! ### The engine -/

/-- 46 R310: one step fetches at `ip`, advances it, decodes, and runs the handler of the decoded instruction; a word that does not decode
faults the engine with the pointer already advanced. The same holds of the engine at every configuration of the codec. -/
def Obligations.StepRunsTheDecodedInstruction : Prop :=
  ∀ (s : State) (w : IWord), s.run = .running → s.program[s.ip]? = some w →
    (∀ i, decode w = .ok i → step s = exec i { s with ip := s.ip + 1 })
    ∧ (∀ f, decode w = .error f → step s = .next { s with ip := s.ip + 1, run := .faulted f })
    ∧ ∀ C : Codec,
        (∀ i, decodeWith C w = .ok i → engineStep C s = exec i { s with ip := s.ip + 1 })
        ∧ (∀ f, decodeWith C w = .error f → engineStep C s = .next { s with ip := s.ip + 1, run := .faulted f })

/-- 46 section 7, 60 section 5: the end of the buffer is an implicit halt; a Halted or Faulted engine has no transition; the exit code is
0 on Halted and 1 on Faulted. -/
def Obligations.RunEndsAtHaltFaultOrBufferEnd : Prop :=
  (∀ s : State, s.run = .running → s.ip = s.program.length → step s = .next { s with run := .halted })
    ∧ (∀ s t : State, s.run ≠ .running → step s ≠ .next t)
    ∧ exitCode .halted = some 0 ∧ (∀ f, exitCode (.faulted f) = some 1)

/-- Every instruction has a next state in every state: a failure is one too (60 section 5; log 10). That `div` and `mod` of -2^63 by -1
complete is the model's choice (93 U3 refuses by default and allows any value; log 15), and so is that `input` completes when the host's
values are exhausted (93 U6; log 18). -/
def Obligations.EveryInstructionAnswersNext : Prop :=
  ∀ (i : Instr) (s : State), ∃ t, exec i s = .next t

/-- 60 section 5 (D29): a faulting handler has written nothing but the run state. -/
def Obligations.FaultingHandlerWritesNothing : Prop :=
  ∀ (i : Instr) (s t : State) (f : Failure), s.run = .running → exec i s = .next t → t.run = .faulted f →
    t = { s with run := .faulted f }

/-- 70 section 2 (D26): after construction and load the machine is at index 0, flags clear, stacks empty, Running, whatever the registers,
the RAM, the parameters and the host's input hold. -/
def Obligations.BootLeavesTheResetTable : Prop :=
  ∀ (regs : Vector Word 32) (ram : Memory) (h w : Nat) (endOk : Bool) (inputs : List Word) (program : List IWord),
    let s := State.boot regs ram h w endOk inputs program
    s.ip = 0 ∧ s.flags.e = false ∧ s.flags.l = false ∧ s.flags.o = false ∧ s.valueStack = [] ∧ s.callStack = []
      ∧ s.program = program ∧ s.run = .running ∧ s.regs = regs ∧ s.ram = ram
      ∧ s.screenH = h ∧ s.screenW = w ∧ s.targetEndOk = endOk
      ∧ (program = [] → step s = .next { s with run := .halted })

/-- The invariant holds at reset and after every boot with a canonical RAM and a legal screen. -/
def Obligations.ResetAndBootMeetTheInvariant : Prop :=
  State.reset.Inv
    ∧ ∀ (regs : Vector Word 32) (ram : Memory) (h w : Nat) (endOk : Bool) (inputs : List Word) (program : List IWord),
        ram.wf = true → 0 < h → 0 < w → h * w ≤ 1048576 → (State.boot regs ram h w endOk inputs program).Inv

/-- Every step keeps the invariant: canonical RAM, `ip` and return indices inside `0 .. len`, the call stack within its capacity, no
impossible flags, a legal screen (10 R30, R36, 45 R285). It does so at every configuration of the codec. -/
def Obligations.EveryStepKeepsTheInvariant : Prop :=
  ∀ s t : State, s.Inv → (step s = .next t → t.Inv) ∧ ∀ C : Codec, engineStep C s = .next t → t.Inv

/-! ### Frames over all instructions -/

/-- An instruction writes no register but its destinations (10 R27). -/
def Obligations.OnlyDestinationRegistersChange : Prop :=
  ∀ (i : Instr) (s t : State), exec i s = .next t → ∀ r, r ∉ destinations i → t.getReg r = s.getReg r

/-- 10 R33: `cmp` alone writes the flags, overwriting all three whatever they held and clearing the reserved one; only `jmp` with a
condition other than always, and `dump`, read them: any other instruction does the same whatever the flags hold. -/
def Obligations.FlagsWrittenByCmpReadByJmpAndDump : Prop :=
  (∀ (i : Instr) (s t : State), exec i s = .next t → (∀ rd rn, i ≠ .cmp rd rn) → t.flags = s.flags)
    ∧ (∀ (rd rn : Reg) (s t : State) (f : Flags), exec (.cmp rd rn) s = .next t →
        exec (.cmp rd rn) { s with flags := f } = .next t ∧ t.flags.o = false
          ∧ (t.flags.e = true ↔ s.getReg rd = s.getReg rn))
    ∧ (∀ (i : Instr) (s t : State) (f : Flags), (∀ c off, i = .jmp c off → c = 0) → i ≠ .dump → exec i s = .next t →
        ∃ u, exec i { s with flags := f } = .next u ∧ { u with flags := t.flags } = t)

/-- An instruction changes no RAM cell but the one `stm` stores to (46 R323); the address is the effective address its meaning computes. -/
def Obligations.OnlyTheStoredCellChanges : Prop :=
  ∀ (i : Instr) (s t : State), s.ram.wf = true → exec i s = .next t →
    ∀ a, storedCell i s ≠ some a → t.ram.read a = s.ram.read a

/-- 10 section 2.6: no instruction writes the instruction buffer, and none reads it as data: only its length matters. -/
def Obligations.ProgramIsNeitherWrittenNorReadAsData : Prop :=
  ∀ (i : Instr) (s t : State) (p : List IWord), exec i s = .next t →
    t.program = s.program
      ∧ (p.length = s.program.length → exec i { s with program := p } = .next { t with program := p })

/-- 10 R31, R35, R36 and the host interface: only `jmp`, `call` and `ret` move `ip`; only `pushr` and `popr` change the value stack, only
`call` and `ret` the call stack; only `input` takes a host value; only `print`, `draw` and `dump` output, and output is only appended; the
screen constants and `TARGET_END_OK` never change; the run state changes by `halt` or by a failure only. -/
def Obligations.StackPointerHostAndScreenFrame : Prop :=
  ∀ (i : Instr) (s t : State), exec i s = .next t →
    ((∀ c off, i ≠ .jmp c off) → (∀ c off, i ≠ .call c off) → i ≠ .ret → t.ip = s.ip)
    ∧ ((∀ rd, i ≠ .pushr rd) → (∀ rd, i ≠ .popr rd) → t.valueStack = s.valueStack)
    ∧ ((∀ c off, i ≠ .call c off) → i ≠ .ret → t.callStack = s.callStack)
    ∧ ((∀ rd, i ≠ .input rd) → t.inputs = s.inputs)
    ∧ ((∀ rd, i ≠ .print rd) → (∀ rd, i ≠ .draw rd) → i ≠ .dump → t.outputs = s.outputs)
    ∧ (∃ evs, t.outputs = s.outputs ++ evs)
    ∧ t.screenH = s.screenH ∧ t.screenW = s.screenW ∧ t.targetEndOk = s.targetEndOk
    ∧ (t.run = s.run ∨ (i = .halt ∧ t.run = .halted) ∨ ∃ f, t.run = .faulted f)

/-! ### Data movement, arithmetic, logic -/

/-- 45 R270. -/
def Obligations.MovCopiesTheRegister : Prop :=
  ∀ (rd rn : Reg) (s : State), ∃ t, exec (.mov rd rn) s = .next t ∧ State.RegResult s t rd (s.getReg rn)

/-- 45 R271: the register holds the signed 20-bit constant itself. -/
def Obligations.LdcLoadsTheSignedConstant : Prop :=
  ∀ (rd : Reg) (imm : Int) (s : State), -524288 ≤ imm → imm ≤ 524287 →
    ∃ t v, exec (.ldc rd imm) s = .next t ∧ State.RegResult s t rd v ∧ v.toInt = imm

/-- 45 section 2 (shape D18; that rd is written from rn: D32, log 25): every bit inverted; as a signed number, `-x - 1`. -/
def Obligations.NotComplementsEveryBit : Prop :=
  ∀ (rd rn : Reg) (s : State), ∃ t v, exec (.not rd rn) s = .next t ∧ State.RegResult s t rd v
    ∧ (∀ k, k < 64 → v.getLsbD k = !(s.getReg rn).getLsbD k) ∧ v.toInt = -(s.getReg rn).toInt - 1

/-- 45 sections 3 and 4 (D29): sum, difference and product are the true results wrapped to signed 64 bits. -/
def Obligations.AddSubMulWrapTo64Bits : Prop :=
  ∀ (rd rl rr : Reg) (s : State),
    (∃ t v, exec (.add rd rl rr) s = .next t ∧ State.RegResult s t rd v
      ∧ v.toInt = ((s.getReg rl).toInt + (s.getReg rr).toInt).bmod (2 ^ 64))
    ∧ (∃ t v, exec (.sub rd rl rr) s = .next t ∧ State.RegResult s t rd v
      ∧ v.toInt = ((s.getReg rl).toInt - (s.getReg rr).toInt).bmod (2 ^ 64))
    ∧ (∃ t v, exec (.mul rd rl rr) s = .next t ∧ State.RegResult s t rd v
      ∧ v.toInt = ((s.getReg rl).toInt * (s.getReg rr).toInt).bmod (2 ^ 64))

/-- 45 R282, R283, R284: bit by bit. -/
def Obligations.OrXorAndActBitwise : Prop :=
  ∀ (rd rl rr : Reg) (s : State),
    (∃ t v, exec (.or rd rl rr) s = .next t ∧ State.RegResult s t rd v
      ∧ ∀ k, k < 64 → v.getLsbD k = ((s.getReg rl).getLsbD k || (s.getReg rr).getLsbD k))
    ∧ (∃ t v, exec (.xor rd rl rr) s = .next t ∧ State.RegResult s t rd v
      ∧ ∀ k, k < 64 → v.getLsbD k = Bool.xor ((s.getReg rl).getLsbD k) ((s.getReg rr).getLsbD k))
    ∧ (∃ t v, exec (.and rd rl rr) s = .next t ∧ State.RegResult s t rd v
      ∧ ∀ k, k < 64 → v.getLsbD k = ((s.getReg rl).getLsbD k && (s.getReg rr).getLsbD k))

/-- 45 section 4, 60 section 4 (rounding: general knowledge G3, log 23): a zero divisor faults with nothing written; otherwise `div`
gives the quotient rounded toward zero and `mod` the remainder of that division, with the sign of the dividend. The pair -2^63 by -1,
which the rules leave unspecified, is left to `UnspecifiedResultsAreFree`. -/
def Obligations.DivModTruncateOrFault : Prop :=
  ∀ (rd rl rr : Reg) (s : State),
    (s.getReg rr = 0 →
      (∃ t, exec (.div rd rl rr) s = .next t ∧ State.FaultedBy s t .divisionByZero)
      ∧ (∃ t, exec (.mod rd rl rr) s = .next t ∧ State.FaultedBy s t .divisionByZero))
    ∧ (s.getReg rr ≠ 0 → ¬((s.getReg rl).toInt = -(2 ^ 63) ∧ (s.getReg rr).toInt = -1) →
        (∃ t v, exec (.div rd rl rr) s = .next t ∧ State.RegResult s t rd v
          ∧ v.toInt = (s.getReg rl).toInt.tdiv (s.getReg rr).toInt)
        ∧ (∃ t v, exec (.mod rd rl rr) s = .next t ∧ State.RegResult s t rd v
          ∧ v.toInt = (s.getReg rl).toInt - (s.getReg rl).toInt.tdiv (s.getReg rr).toInt * (s.getReg rr).toInt))

/-- 45 section 3 (D29): quotient and remainder of one pair of operands recombine, the remainder is smaller than the divisor and has the
sign of the dividend. -/
def Obligations.QuotientAndRemainderRecombine : Prop :=
  ∀ (rd rl rr : Reg) (s : State), s.getReg rr ≠ 0 →
    ¬((s.getReg rl).toInt = -(2 ^ 63) ∧ (s.getReg rr).toInt = -1) →
    ∃ t u, exec (.div rd rl rr) s = .next t ∧ exec (.mod rd rl rr) s = .next u
      ∧ (t.getReg rd).toInt * (s.getReg rr).toInt + (u.getReg rd).toInt = (s.getReg rl).toInt
      ∧ (u.getReg rd).toInt.natAbs < (s.getReg rr).toInt.natAbs
      ∧ (0 ≤ (s.getReg rl).toInt → 0 ≤ (u.getReg rd).toInt)
      ∧ ((s.getReg rl).toInt ≤ 0 → (u.getReg rd).toInt ≤ 0)

/-- 45 section 4 (that rl is shifted by rr: D32, log 25): for an amount below 64, the left and the logical right shift of the unsigned
pattern. Amounts of 64 and more, which the rules leave unspecified, are left to `UnspecifiedResultsAreFree`. -/
def Obligations.ShiftsActOnTheUnsignedPattern : Prop :=
  ∀ (rd rl rr : Reg) (s : State), (s.getReg rr).toNat < 64 →
    (∃ t v, exec (.shl rd rl rr) s = .next t ∧ State.RegResult s t rd v
      ∧ v.toNat = (s.getReg rl).toNat * 2 ^ (s.getReg rr).toNat % 2 ^ 64)
    ∧ (∃ t v, exec (.shr rd rl rr) s = .next t ∧ State.RegResult s t rd v
      ∧ v.toNat = (s.getReg rl).toNat / 2 ^ (s.getReg rr).toNat)

/-- The model's choice (log 15, log 16; 93 U3, U4): where the spec leaves a result unspecified the instruction completes, the destination
holds some value, and nothing else changes but the count of free values. -/
def Obligations.UnspecifiedResultsAreFree : Prop :=
  ∀ (rd rl rr : Reg) (s : State),
    (((s.getReg rl).toInt = -(2 ^ 63) ∧ (s.getReg rr).toInt = -1) →
      (∃ t, exec (.div rd rl rr) s = .next t ∧ State.RegFree s t rd)
      ∧ (∃ t, exec (.mod rd rl rr) s = .next t ∧ State.RegFree s t rd))
    ∧ (64 ≤ (s.getReg rr).toNat →
      (∃ t, exec (.shl rd rl rr) s = .next t ∧ State.RegFree s t rd)
      ∧ (∃ t, exec (.shr rd rl rr) s = .next t ∧ State.RegFree s t rd))

/-- 45 section 2 (D38, log 24; that rd is written from rn: D32, log 25): for a source that is not negative, the largest integer whose square does not pass it. -/
def Obligations.SqrtIsTheExactFloor : Prop :=
  ∀ (rd rn : Reg) (s : State), 0 ≤ (s.getReg rn).toInt →
    ∃ t v, exec (.sqrt rd rn) s = .next t ∧ State.RegResult s t rd v ∧ 0 ≤ v.toInt
      ∧ v.toInt * v.toInt ≤ (s.getReg rn).toInt ∧ (s.getReg rn).toInt < (v.toInt + 1) * (v.toInt + 1)

/-- 45 R272, 60 R361: `sqrt` of a negative source faults with `NegativeSquareRootOperand`. That nothing else is written is the spec's own
decision D29 (45 head, 60 R369; log 34); that rn is the source is its decision D32 (log 25). -/
def Obligations.SqrtOfNegativeFaults : Prop :=
  ∀ (rd rn : Reg) (s : State), (s.getReg rn).toInt < 0 →
    ∃ t f, exec (.sqrt rd rn) s = .next t ∧ State.FaultedBy s t f ∧ f.status = .negativeSquareRootOperand

/-! ### Compare and control -/

/-- 45 section 5 (D32): `cmp` completes, writes the three flags from the signed comparison, left operand first, and changes nothing
else. -/
def Obligations.CmpSetsTheFlags : Prop :=
  ∀ (rd rn : Reg) (s : State), ∃ t, exec (.cmp rd rn) s = .next t ∧ { t with flags := s.flags } = s
    ∧ (t.flags.e = true ↔ (s.getReg rd).toInt = (s.getReg rn).toInt)
    ∧ (t.flags.l = true ↔ (s.getReg rd).toInt < (s.getReg rn).toInt)
    ∧ t.flags.o = false

/-- 46 section 2 (D28): after `cmp a b`, each of the seven conditions holds exactly when its name says so of `a` and `b`. -/
def Obligations.ConditionsReadTheComparison : Prop :=
  ∀ (rd rn : Reg) (s t : State), exec (.cmp rd rn) s = .next t →
    condHolds .always t.flags = true
    ∧ (condHolds .equal t.flags = true ↔ (s.getReg rd).toInt = (s.getReg rn).toInt)
    ∧ (condHolds .notEqual t.flags = true ↔ (s.getReg rd).toInt ≠ (s.getReg rn).toInt)
    ∧ (condHolds .greaterOrEqual t.flags = true ↔ (s.getReg rn).toInt ≤ (s.getReg rd).toInt)
    ∧ (condHolds .greater t.flags = true ↔ (s.getReg rn).toInt < (s.getReg rd).toInt)
    ∧ (condHolds .lessOrEqual t.flags = true ↔ (s.getReg rd).toInt ≤ (s.getReg rn).toInt)
    ∧ (condHolds .less t.flags = true ↔ (s.getReg rd).toInt < (s.getReg rn).toInt)

/-- 46 section 2 (reference condition codes, log 13; formulas D28, log 26): a reserved condition faults; a condition that does not hold
leaves the state as it is, its target unchecked; a taken jump commits its target when it is in bounds, and faults with
`OutOfBoundsAccess` otherwise, whichever value `TARGET_END_OK` has (D30, log 21). -/
def Obligations.JmpTakenUntakenOrFaulted : Prop :=
  ∀ (cond : Fin 32) (off : Int) (s : State),
    (6 < cond.val → ∃ t f, exec (.jmp cond off) s = .next t ∧ State.FaultedBy s t f ∧ f.status = .shapeMismatch)
    ∧ (∀ c, c.code = cond.val →
        (condHolds c s.flags = false → exec (.jmp cond off) s = .next s)
        ∧ (condHolds c s.flags = true →
            (inBounds s.targetEndOk s.program.length ((s.ip : Int) + off) = true →
              ∃ n : Nat, (n : Int) = (s.ip : Int) + off ∧ exec (.jmp cond off) s = .next { s with ip := n })
            ∧ (inBounds s.targetEndOk s.program.length ((s.ip : Int) + off) = false →
              ∃ t f, exec (.jmp cond off) s = .next t ∧ State.FaultedBy s t f ∧ f.status = .outOfBoundsAccess)))

/-- 46 section 3: with 1024 return addresses on the stack `call` faults with `StackOverflow`; else with a target out of bounds it faults with
`OutOfBoundsAccess`; else it pushes the index of the following instruction and goes to the target. The condition slot does not matter
(D19, log 27). -/
def Obligations.CallPushesAndJumpsOrFaults : Prop :=
  ∀ (cond : Fin 32) (off : Int) (s : State),
    (1024 ≤ s.callStack.length → ∃ t f, exec (.call cond off) s = .next t ∧ State.FaultedBy s t f ∧ f.status = .stackOverflow)
    ∧ (s.callStack.length < 1024 → inBounds s.targetEndOk s.program.length ((s.ip : Int) + off) = false →
        ∃ t f, exec (.call cond off) s = .next t ∧ State.FaultedBy s t f ∧ f.status = .outOfBoundsAccess)
    ∧ (s.callStack.length < 1024 → inBounds s.targetEndOk s.program.length ((s.ip : Int) + off) = true →
        ∃ n : Nat, (n : Int) = (s.ip : Int) + off
          ∧ exec (.call cond off) s = .next { s with callStack := s.ip :: s.callStack, ip := n })

/-- 46 R318: `ret` of an empty call stack faults with `StackUnderflow`; a top out of bounds faults with `OutOfBoundsAccess`; else the top
is popped into `ip`. In bounds is as `TARGET_END_OK` says (46 R312). -/
def Obligations.RetPopsOrFaults : Prop :=
  ∀ (s : State),
    (s.callStack = [] → ∃ t f, exec .ret s = .next t ∧ State.FaultedBy s t f ∧ f.status = .stackUnderflow)
    ∧ (∀ top rest, s.callStack = top :: rest →
        (inBounds s.targetEndOk s.program.length top = false →
          ∃ t f, exec .ret s = .next t ∧ State.FaultedBy s t f ∧ f.status = .outOfBoundsAccess)
        ∧ (inBounds s.targetEndOk s.program.length top = true → exec .ret s = .next { s with callStack := rest, ip := top }))

/-- 46 section 3: a `ret` with the call stack a completed `call` left resumes at the instruction following the `call`, and the stack is
as before it, wherever the callee took the rest of the machine. A `call` in the last place of the buffer is so resumed only when
`TARGET_END_OK` is true (R318, log 21): when it is false, the `ret` faults. -/
def Obligations.RetResumesAfterTheCall : Prop :=
  ∀ (cond : Fin 32) (off : Int) (s t u : State), s.run = .running → exec (.call cond off) s = .next t → t.run = .running →
    u.callStack = t.callStack → u.program.length = s.program.length →
    (s.ip < s.program.length → exec .ret u = .next { u with callStack := s.callStack, ip := s.ip })
    ∧ (s.ip = s.program.length → u.targetEndOk = true → exec .ret u = .next { u with callStack := s.callStack, ip := s.ip })
    ∧ (s.ip = s.program.length → u.targetEndOk = false →
        ∃ v, exec .ret u = .next v ∧ State.FaultedBy u v (.outOfBounds s.ip))

/-! ### Stack, memory -/

/-- 46 section 4 (D31): `pushr` always completes and puts the register's value on top; a `popr` right after it gives the value back and
leaves the stack as it was. -/
def Obligations.PushrPushesAndPoprGivesBack : Prop :=
  ∀ (rd rn : Reg) (s : State), ∃ t, exec (.pushr rn) s = .next t ∧ t = { s with valueStack := s.getReg rn :: s.valueStack }
    ∧ ∃ u, exec (.popr rd) t = .next u ∧ State.RegResult s u rd (s.getReg rn)

/-- 46 R320: `popr` of an empty stack faults with `StackUnderflow` and the register unmodified; else the top goes to the register and
leaves the stack. -/
def Obligations.PoprPopsOrFaults : Prop :=
  ∀ (rd : Reg) (s : State),
    (s.valueStack = [] → ∃ t f, exec (.popr rd) s = .next t ∧ State.FaultedBy s t f ∧ f.status = .stackUnderflow)
    ∧ (∀ v rest, s.valueStack = v :: rest →
        ∃ t, exec (.popr rd) s = .next t ∧ State.RegResult { s with valueStack := rest } t rd v)

/-- 46 R321: an effective address outside `0 .. 1048575` (a negative one among them) is `OutOfBoundsAccess`, for the load and for the
store, and nothing is written. -/
def Obligations.AddressOutsideTheRamFaults : Prop :=
  ∀ (rd rn : Reg) (s : State), ¬(0 ≤ (s.getReg rd).toInt ∧ (s.getReg rd).toInt < 1048576) →
    (∃ t, exec (.ldm rd rn) s = .next t ∧ State.FaultedBy s t (.outOfBounds (s.getReg rd).toInt))
    ∧ (∃ t, exec (.stm rd rn) s = .next t ∧ State.FaultedBy s t (.outOfBounds (s.getReg rd).toInt))

/-- 46 section 5 (D32): with the address inside the RAM, `ldm` puts the cell into the `rn` register and changes nothing else. -/
def Obligations.LdmLoadsTheCell : Prop :=
  ∀ (rd rn : Reg) (s : State) (a : Nat), (s.getReg rd).toInt = a → a < 1048576 →
    ∃ t, exec (.ldm rd rn) s = .next t ∧ State.RegResult s t rn (s.ram.read a)

/-- 46 section 5 (D32): with the address inside the RAM, `stm` puts the `rn` register into the cell; every other cell, and the rest of
the machine, is unchanged, and the RAM stays canonical. -/
def Obligations.StmStoresTheCell : Prop :=
  ∀ (rd rn : Reg) (s : State) (a : Nat), s.ram.wf = true → (s.getReg rd).toInt = a → a < 1048576 →
    ∃ t, exec (.stm rd rn) s = .next t ∧ { t with ram := s.ram } = s ∧ t.ram.wf = true
      ∧ t.ram.read a = s.getReg rn ∧ ∀ b, b ≠ a → t.ram.read b = s.ram.read b

/-- 20 section 4: a load right after a store returns the stored value when the addresses agree, and the old cell when they do not. -/
def Obligations.LoadSeesTheLatestStore : Prop :=
  ∀ (rd rn re rm : Reg) (s t u : State) (a b : Nat), s.run = .running → s.ram.wf = true →
    (s.getReg rd).toInt = a → a < 1048576 → exec (.stm rd rn) s = .next t →
    (t.getReg re).toInt = b → b < 1048576 → exec (.ldm re rm) t = .next u →
    u.getReg rm = if b = a then s.getReg rn else s.ram.read b

/-! ### Input, output, system -/

/-- 46 section 6 (D33; log 18): `input` completes with the host's next value when one is queued, and with some value when none is;
nothing else of the machine changes but the host interface. -/
def Obligations.InputTakesTheHostValue : Prop :=
  ∀ (rd : Reg) (s : State),
    (∀ v rest, s.inputs = v :: rest →
      ∃ t, exec (.input rd) s = .next t ∧ State.RegResult { s with inputs := rest } t rd v)
    ∧ (s.inputs = [] → ∃ t, exec (.input rd) s = .next t ∧ State.RegFree s t rd)

/-- 46 section 6 (D33): `print` outputs the register's value as one event and writes no state. -/
def Obligations.PrintOutputsTheRegister : Prop :=
  ∀ (rd : Reg) (s : State), exec (.print rd) s = .next { s with outputs := s.outputs ++ [.int (s.getReg rd)] }

/-- 46 section 6 (D32): `scrhw` writes the height to `rd` and the width to `rn`; with one register the width stays. -/
def Obligations.ScrhwWritesHeightThenWidth : Prop :=
  ∀ (rd rn : Reg) (s : State), ∃ t, exec (.scrhw rd rn) s = .next t
    ∧ t.getReg rn = BitVec.ofNat 64 s.screenW ∧ (rd ≠ rn → t.getReg rd = BitVec.ofNat 64 s.screenH)
    ∧ (∀ r, r ≠ rd → r ≠ rn → t.getReg r = s.getReg r) ∧ { t with regs := s.regs } = s

/-- 46 section 6 (D37): `draw` of a region inside the RAM outputs its cells in ascending order and writes no state; nothing is claimed of
where the lines end (conflict C3; log 20). A region that does not lie in the RAM is `OutOfBoundsAccess` with no output. -/
def Obligations.DrawShowsTheRegionOrFaults : Prop :=
  ∀ (rd : Reg) (s : State),
    (0 ≤ (s.getReg rd).toInt ∧ (s.getReg rd).toInt + (s.screenH * s.screenW : Nat) ≤ 1048576 →
      ∃ evs, exec (.draw rd) s = .next { s with outputs := s.outputs ++ evs }
        ∧ evs.filter (fun e => e != .newline)
            = (List.range (s.screenH * s.screenW)).map
                (fun k => .cell (decide (s.ram.read ((s.getReg rd).toInt.toNat + k) ≠ 0))))
    ∧ (¬(0 ≤ (s.getReg rd).toInt ∧ (s.getReg rd).toInt + (s.screenH * s.screenW : Nat) ≤ 1048576) →
      ∃ t f, exec (.draw rd) s = .next t ∧ State.FaultedBy s t f ∧ f.status = .outOfBoundsAccess)

/-- 46 R328: `dump` outputs a snapshot with the registers, the instruction pointer and both stacks, and does not alter the machine. That the
model records it, as one output event, and what the event holds, is the model's choice (R328 allows none; D33; log 19, log 38). -/
def Obligations.DumpOutputsASnapshot : Prop :=
  ∀ (s : State), ∃ snap : Snapshot, exec .dump s = .next { s with outputs := s.outputs ++ [.dump snap] }
    ∧ snap.regs = s.regs ∧ snap.ip = s.ip ∧ snap.valueStack = s.valueStack ∧ snap.callStack = s.callStack

/-- 46 R329: `halt` makes the run state Halted, `ip` stays, and no further step is taken. -/
def Obligations.HaltEndsTheRun : Prop :=
  ∀ (s : State), ∃ t, exec .halt s = .next t ∧ t = { s with run := .halted } ∧ ∀ u, step t ≠ .next u

/-! ### Loader and text -/

/-- 20 R50: word `i` of the object is bytes `4i` to `4i+3`, least significant first, and the loader rebuilds the words. -/
def Obligations.ObjectBytesAreLittleEndianWords : Prop :=
  ∀ ws : List IWord,
    (∀ i k, k < 4 → (bytesOfWords ws)[4 * i + k]? = (ws[i]?).map (fun w => w.extractLsb' (8 * k) 8))
    ∧ loadWords (bytesOfWords ws) = .ok ws

/-- 60 section 4 (D35): a file whose length is not a multiple of 4 fails to load with `PrematureEOF`; one whose length is a multiple of 4
loads a word for every 4 bytes. -/
def Obligations.PartialWordFailsToLoad : Prop :=
  ∀ (s : State) (bytes : List Byte),
    (bytes.length % 4 ≠ 0 → ∃ f, s.loadBinary bytes = .error f ∧ f.status = .prematureEOF)
    ∧ (bytes.length % 4 = 0 → ∃ t, s.loadBinary bytes = .ok t ∧ 4 * t.program.length = bytes.length
        ∧ bytesOfWords t.program = bytes ∧ { t with program := s.program } = s)

/-- 44 section 7, 46 section 2 (D30; log 21): a jump at index `k` with the offset its label assembles to goes to the label's index; a label
at the end of the source binds to `len`, and a jump to it goes there when `TARGET_END_OK` is true and faults with `OutOfBoundsAccess` when it
is false; one beyond the end faults in both cases. -/
def Obligations.LabelOffsetReachesTheLabel : Prop :=
  ∀ (s : State) (target k : Nat), s.ip = k + 1 →
    (target < s.program.length → exec (.jmp 0 (labelOffset target k)) s = .next { s with ip := target })
    ∧ (target = s.program.length → s.targetEndOk = true → exec (.jmp 0 (labelOffset target k)) s = .next { s with ip := target })
    ∧ (target = s.program.length → s.targetEndOk = false →
        ∃ t, exec (.jmp 0 (labelOffset target k)) s = .next t ∧ State.FaultedBy s t (.outOfBounds target))
    ∧ (s.program.length < target →
        ∃ t, exec (.jmp 0 (labelOffset target k)) s = .next t ∧ State.FaultedBy s t (.outOfBounds target))

/-- 44 section 8: canonical words that use neither register 31, nor a reserved condition, nor a nonzero slot in `call`, disassemble to
lines that assemble to the same words (reference table; `REG31_NAME` left open as the empty name, log 33). -/
def Obligations.TextRoundTripIsTheIdentity : Prop :=
  ∀ is : List Instr,
    (∀ i ∈ is, i.wellFormed = true
      ∧ (∀ c off, i = .jmp c off → c.val ≤ 6) ∧ (∀ c off, i = .call c off → c = 0)
      ∧ ∀ r, (match i with
              | .mov a b | .sqrt a b | .not a b | .cmp a b | .ldm a b | .stm a b | .scrhw a b => r = a ∨ r = b
              | .add a b c | .sub a b c | .mul a b c | .div a b c | .mod a b c | .shl a b c | .shr a b c | .or a b c
              | .xor a b c | .and a b c => r = a ∨ r = b ∨ r = c
              | .ldc a _ | .pushr a | .popr a | .input a | .print a | .draw a => r = a
              | .jmp _ _ | .call _ _ | .ret | .dump | .halt => False) → r ≠ (31 : Reg)) →
    ∃ ws lines, is.mapM (fun i => encode i) = .ok ws
      ∧ disassemble refCodec [] ws = (lines, none) ∧ assemble refCodec [] lines = .ok ws
end

