-- ==== Sys2Proof/Laws/Codec.lean ====
section
/-! SUPPORT. The fields of the argument bit by bit, their read and write laws, and what the primitives answer inside the window. -/

namespace Sys2Proof

/-! ### Fields -/

/-- A field's value fits its width. -/
theorem fld_lt (a : Arg) (pos len : Nat) : fld a pos len < 2 ^ len := Nat.mod_lt _ (Nat.two_pow_pos len)

/-- The bits of a field, the last position being the least significant (00 R10). -/
theorem testBit_fld (a : Arg) (pos len i : Nat) :
    (fld a pos len).testBit i = (decide (i < len) && a.getLsbD (24 - pos - len + i)) := by
  simp [fld, Nat.testBit_mod_two_pow, Nat.testBit_div_two_pow, BitVec.getLsbD, Nat.add_comm]

/-- The bits of an argument with a field replaced (00 R13). -/
theorem getLsbD_ins (a : Arg) (pos len v i : Nat) (h : pos + len ≤ 24) (hv : v < 2 ^ len) (hi : i < 24) :
    (ins a pos len v).getLsbD i =
      if 24 - pos - len ≤ i ∧ i < 24 - pos then v.testBit (i - (24 - pos - len)) else a.getLsbD i := by
  have hk : 24 - pos = len + (24 - pos - len) := by omega
  generalize hkk : 24 - pos - len = k at *
  have hlo : a.toNat % 2 ^ k < 2 ^ k := Nat.mod_lt _ (Nat.two_pow_pos k)
  have hmid : 2 ^ k * v + a.toNat % 2 ^ k < 2 ^ (len + k) := by
    have h1 : 2 ^ k * v + 2 ^ k ≤ 2 ^ k * 2 ^ len := by
      rw [← Nat.mul_succ]; exact Nat.mul_le_mul_left _ hv
    rw [Nat.pow_add, Nat.mul_comm (2 ^ len)]
    omega
  have hval : a.toNat / 2 ^ (24 - pos) * 2 ^ (24 - pos) + v * 2 ^ (24 - pos - len) + a.toNat % 2 ^ (24 - pos - len)
      = 2 ^ (len + k) * (a.toNat / 2 ^ (len + k)) + (2 ^ k * v + a.toNat % 2 ^ k) := by
    rw [hkk, hk, Nat.mul_comm (a.toNat / _), Nat.mul_comm v]; omega
  rw [ins, hval, BitVec.getLsbD_ofNat, Nat.testBit_two_pow_mul_add _ hmid, Nat.testBit_two_pow_mul_add _ hlo]
  simp only [hi, decide_true, Bool.true_and, hk, Nat.testBit_div_two_pow, Nat.testBit_mod_two_pow, BitVec.getLsbD]
  by_cases h1 : i < len + k
  · by_cases h2 : i < k
    · simp [h1, h2]
    · simp [h1, h2]
  · simp only [h1, if_false, and_false]
    congr 1; omega

/-- A field read after a write of it gives the value written (40 R118, law 1). -/
@[simp] theorem fld_ins_same (a : Arg) (pos len v : Nat) (h : pos + len ≤ 24) (hv : v < 2 ^ len) :
    fld (ins a pos len v) pos len = v := by
  apply Nat.eq_of_testBit_eq
  intro i
  rw [testBit_fld]
  by_cases hi : i < len
  · rw [getLsbD_ins a pos len v _ h hv (by omega), if_pos (by omega)]
    simp [hi]
  · simp only [hi, decide_false, Bool.false_and]
    exact (Nat.testBit_lt_two_pow (Nat.lt_of_lt_of_le hv (Nat.pow_le_pow_right (by omega) (by omega)))).symm

/-- A write of a field leaves every disjoint field alone (40 R118, law 3). -/
theorem fld_ins_disjoint (a : Arg) (pos len v pos' len' : Nat) (h : pos + len ≤ 24) (h' : pos' + len' ≤ 24) (hv : v < 2 ^ len)
    (hd : pos + len ≤ pos' ∨ pos' + len' ≤ pos) : fld (ins a pos len v) pos' len' = fld a pos' len' := by
  apply Nat.eq_of_testBit_eq
  intro i
  rw [testBit_fld, testBit_fld]
  by_cases hi : i < len'
  · rw [getLsbD_ins a pos len v _ h hv (by omega), if_neg (by omega)]
  · simp [hi]

/-- Writing back what a field holds changes nothing (40 R118, law 2). -/
@[simp] theorem ins_fld (a : Arg) (pos len : Nat) (h : pos + len ≤ 24) : ins a pos len (fld a pos len) = a := by
  apply BitVec.eq_of_getLsbD_eq
  intro i hi
  rw [getLsbD_ins a pos len _ i h (fld_lt a pos len) hi]
  split
  · rename_i hr
    rw [testBit_fld]
    have : 24 - pos - len + (i - (24 - pos - len)) = i := by omega
    simp only [this]
    simp; omega
  · rfl

/-- The first position of a field is its most significant (40 R118, law 5). -/
theorem fld_split (w : Arg) (pos a b : Nat) (h : pos + (a + b) ≤ 24) :
    fld w pos (a + b) = fld w pos a * 2 ^ b + fld w (pos + a) b := by
  apply Nat.eq_of_testBit_eq
  intro i
  rw [Nat.mul_comm, Nat.testBit_two_pow_mul_add _ (fld_lt _ _ _)]
  simp only [testBit_fld]
  by_cases hi : i < b
  · have e : 24 - pos - (a + b) + i = 24 - (pos + a) - b + i := by omega
    have h1 : i < a + b := by omega
    simp [hi, h1, e]
  · simp only [hi, if_false]
    by_cases h2 : i < a + b
    · have e : 24 - pos - (a + b) + i = 24 - pos - a + (i - b) := by omega
      have h3 : i - b < a := by omega
      simp [h2, h3, e]
    · have h3 : ¬ i - b < a := by omega
      simp [h2, h3]

/-- Two arguments with the same 24 one-bit fields are equal. -/
theorem arg_ext (a b : Arg) (h : ∀ p, p < 24 → fld a p 1 = fld b p 1) : a = b := by
  apply BitVec.eq_of_getLsbD_eq
  intro i hi
  have hp := congrArg (fun n => n.testBit 0) (h (23 - i) (by omega))
  simp only [testBit_fld] at hp
  have e : 24 - (23 - i) - 1 + 0 = i := by omega
  simpa [e] using hp

/-- A field of an all-clear argument is 0. -/
@[simp] theorem fld_zero (pos len : Nat) : fld 0 pos len = 0 := by simp [fld]

/-! ### The primitives inside the window -/

section
variable {L : HdrLayout}

/-- `get_bitfield` inside the window. -/
theorem getBitfield_ok (w : IWord) (pos len : Nat) (h : pos + len ≤ 24) : getBitfield L w pos len = .ok (fld (L.arg w) pos len) := by
  rw [getBitfield, if_neg (by omega)]

/-- `set_bitfield` inside the window with a value that fits. -/
theorem setBitfield_ok (w : IWord) (pos len v : Nat) (h : pos + len ≤ 24) (hv : v < 2 ^ len) :
    setBitfield L w pos len v = .ok (L.build (L.opc w) (L.ext w) (L.rsv w) (ins (L.arg w) pos len v)) := by
  rw [setBitfield, if_neg (by omega), if_neg (by omega)]

/-- What `set_bitfield` can do. -/
theorem setBitfield_cases (w : IWord) (pos len v : Nat) :
    (24 < pos + len ∧ setBitfield L w pos len v = .error (.decodeError pos len))
      ∨ (pos + len ≤ 24 ∧ 2 ^ len ≤ v ∧ setBitfield L w pos len v = .error (.operandRange v len))
      ∨ (pos + len ≤ 24 ∧ v < 2 ^ len
          ∧ setBitfield L w pos len v = .ok (L.build (L.opc w) (L.ext w) (L.rsv w) (ins (L.arg w) pos len v))) := by
  by_cases h : 24 < pos + len
  · exact .inl ⟨h, if_pos h⟩
  · by_cases hv : 2 ^ len ≤ v
    · exact .inr (.inl ⟨by omega, hv, by rw [setBitfield, if_neg h, if_pos hv]⟩)
    · exact .inr (.inr ⟨by omega, by omega, setBitfield_ok w pos len v (by omega) (by omega)⟩)

/-- `get_register` in head-bit mode, inside the window (30 R86). -/
theorem getRegister_head (w : IWord) (pos : Nat) (h : pos + 4 ≤ 24) :
    getRegister L w pos true = .ok (16 * (L.ext w).toNat + fld (L.arg w) pos 4) := by
  simp [getRegister, getBitfield_ok w pos 4 h, bind, Except.bind]

/-- `get_register` in inline mode, inside the window (30 R86). -/
theorem getRegister_inline (w : IWord) (pos : Nat) (h : pos + 5 ≤ 24) :
    getRegister L w pos false = .ok (fld (L.arg w) pos 5) := by
  simp [getRegister, getBitfield_ok w pos 5 h]

/-- `set_register` in head-bit mode, inside the window, of a register number. -/
theorem setRegister_head (hL : L.Lawful) (w : IWord) (pos n : Nat) (h : pos + 4 ≤ 24) (hn : n < 32) :
    setRegister L w pos true n
      = .ok (L.build (L.opc w) (decide (16 ≤ n)) (L.rsv w) (ins (L.arg w) pos 4 (n % 16))) := by
  have hv : n % 16 < 2 ^ 4 := by omega
  simp [setRegister, Nat.not_lt.2 h, show ¬ 31 < n by omega, setBitfield_ok _ pos 4 _ h hv, hL.opc_build, hL.ext_build,
    hL.rsv_build, hL.arg_build]

/-- `set_register` in inline mode, inside the window, of a register number. -/
theorem setRegister_inline (w : IWord) (pos n : Nat) (h : pos + 5 ≤ 24) (hn : n < 32) :
    setRegister L w pos false n = .ok (L.build (L.opc w) (L.ext w) (L.rsv w) (ins (L.arg w) pos 5 n)) := by
  simp [setRegister, Nat.not_lt.2 h, show ¬ 31 < n by omega, setBitfield_ok w pos 5 n h (by omega)]

/-- A register number is rebuilt from its head bit and its nibble (41 R137). -/
theorem headBit_nibble (n : Nat) (h : n < 32) : 16 * (decide (16 ≤ n)).toNat + n % 16 = n := by
  by_cases h16 : 16 ≤ n
  · simp [h16]; omega
  · simp [h16]; omega

/-! ### Signed fields -/

/-- The pattern of a signed number fits 20 bits. -/
theorem tc20_lt (s : Int) : tc20 s < 2 ^ 20 := by unfold tc20; omega

/-- A signed 20-bit number is read back from its pattern (42 R169). -/
theorem sext20_tc20 (s : Int) (h1 : -524288 ≤ s) (h2 : s ≤ 524287) : sext20 (tc20 s) = s := by
  unfold sext20 tc20
  split <;> omega

/-- A 20-bit pattern is rebuilt from the signed number it is read as. -/
theorem tc20_sext20 (u : Nat) (h : u < 2 ^ 20) : tc20 (sext20 u) = u := by
  unfold sext20 tc20
  split <;> omega

/-- A 20-bit pattern is read as a number of the signed 20-bit range (30 R87). -/
theorem sext20_range (u : Nat) (h : u < 2 ^ 20) : -524288 ≤ sext20 u ∧ sext20 u ≤ 524287 := by
  unfold sext20
  split <;> omega

/-- `set_simm20` inside the window of a number in range. -/
theorem setSimm20_ok (w : IWord) (pos : Nat) (s : Int) (h : pos + 20 ≤ 24) (h1 : -524288 ≤ s) (h2 : s ≤ 524287) :
    setSimm20 L w pos s = .ok (L.build (L.opc w) (L.ext w) (L.rsv w) (ins (L.arg w) pos 20 (tc20 s))) := by
  rw [setSimm20, if_neg (by omega), setBitfield_ok w pos 20 _ h (tc20_lt s)]

end

/-! ### The reference layout -/

/-- The reference header layout is lawful (30 R71). -/
theorem refLayout_lawful : refLayout.Lawful where
  opc_build := by
    intro o e r a
    apply BitVec.eq_of_getLsbD_eq; intro i hi
    simp only [refLayout, BitVec.getLsbD_extractLsb', BitVec.getLsbD_append, BitVec.getLsbD_ofBool]
    have e1 : 26 + i - 24 - 1 - 1 = i := by omega
    simp [hi, e1, show ¬ 26 + i < 24 by omega, show ¬ 26 + i - 24 < 1 by omega, show ¬ 26 + i - 24 - 1 < 1 by omega]
  ext_build := by
    intro o e r a
    simp only [refLayout, BitVec.getLsbD_append, BitVec.getLsbD_ofBool]
    simp
  rsv_build := by
    intro o e r a
    simp only [refLayout, BitVec.getLsbD_append, BitVec.getLsbD_ofBool]
    simp
  arg_build := by
    intro o e r a
    apply BitVec.eq_of_getLsbD_eq; intro i hi
    simp only [refLayout, BitVec.getLsbD_extractLsb', BitVec.getLsbD_append, BitVec.getLsbD_ofBool]
    simp [hi]
  build_views := by
    intro w
    apply BitVec.eq_of_getLsbD_eq; intro i hi
    simp only [refLayout, BitVec.getLsbD_append, BitVec.getLsbD_extractLsb', BitVec.getLsbD_ofBool]
    by_cases h1 : i < 24
    · simp [h1]
    · by_cases h2 : i = 24
      · subst h2; simp
      · by_cases h3 : i = 25
        · subst h3; simp
        · have e : 26 + (i - 24 - 1 - 1) = i := by omega
          have : i - 24 - 1 - 1 < 6 := by omega
          simp [h1, e, this, show ¬ i - 24 < 1 by omega, show ¬ i - 24 - 1 < 1 by omega]

/-- The reference configuration is well-formed (43 R191). -/
theorem refCodec_wf : refCodec.wf = true := by decide

end Sys2Proof
end

