-- ==== Sys2Proof/Laws/Memory.lean ====
section
/-! SUPPORT. The RAM: reading after writing, and the canonical form kept by every write. -/

namespace Sys2Proof.Machine

/-- The canonical form, written out. -/
theorem Memory.wf_iff (m : Memory) :
    m.wf = true ↔ m.Pairwise (fun c d => c.1 < d.1) ∧ ∀ c ∈ m, c.1 < ramCells ∧ c.2 ≠ ramUnlisted := by
  simp [Memory.wf]

/-- A cell below every listed cell reads as an unlisted cell. -/
theorem Memory.read_of_lt (m : Memory) (a : Nat) (h : ∀ c ∈ m, a < c.1) : m.read a = ramUnlisted := by
  induction m with
  | nil => rfl
  | cons c rest ih =>
    have h0 := h c (by simp)
    simp only [Memory.read]
    rw [if_neg (by omega)]
    exact ih (fun d hd => h d (by simp [hd]))

/-- The listed cells after a write: the written one, if it has to be listed, and old ones. -/
theorem Memory.mem_write (m : Memory) (a : Nat) (v : Word) (c : Nat × Word) (h : c ∈ m.write a v) :
    (c = (a, v) ∧ v ≠ ramUnlisted) ∨ c ∈ m := by
  induction m with
  | nil =>
    simp only [Memory.write] at h
    split at h
    · simp at h
    · rename_i hv
      exact .inl ⟨by simpa using h, hv⟩
  | cons d rest ih =>
    obtain ⟨b, u⟩ := d
    simp only [Memory.write] at h
    split at h
    · split at h
      · exact .inr h
      · rename_i hv
        rcases List.mem_cons.1 h with h | h
        · exact .inl ⟨h, hv⟩
        · exact .inr h
    · split at h
      · split at h
        · exact .inr (List.mem_cons_of_mem _ h)
        · rename_i hv
          rcases List.mem_cons.1 h with h | h
          · exact .inl ⟨h, hv⟩
          · exact .inr (List.mem_cons_of_mem _ h)
      · rcases List.mem_cons.1 h with h | h
        · exact .inr (h ▸ List.mem_cons_self)
        · rcases ih h with h | h
          · exact .inl h
          · exact .inr (List.mem_cons_of_mem _ h)

/-- A write keeps the indices strictly rising. -/
theorem Memory.write_sorted (m : Memory) (a : Nat) (v : Word) (h : m.Pairwise (fun c d => c.1 < d.1)) :
    (m.write a v).Pairwise (fun c d => c.1 < d.1) := by
  induction m with
  | nil => simp only [Memory.write]; split <;> simp
  | cons d rest ih =>
    obtain ⟨b, u⟩ := d
    have hr := List.pairwise_cons.1 h
    simp only [Memory.write]
    split
    · rename_i hab
      split
      · exact h
      · refine List.pairwise_cons.2 ⟨fun c hc => ?_, h⟩
        rcases List.mem_cons.1 hc with hc | hc
        · subst hc; exact hab
        · exact Nat.lt_trans hab (hr.1 c hc)
    · split
      · rename_i hab
        split
        · exact hr.2
        · exact List.pairwise_cons.2 ⟨fun c hc => hab ▸ hr.1 c hc, hr.2⟩
      · refine List.pairwise_cons.2 ⟨fun c hc => ?_, ih hr.2⟩
        rcases Memory.mem_write rest a v c hc with ⟨hc, -⟩ | hc
        · subst hc; simp only; omega
        · exact hr.1 c hc

/-- A write inside the RAM keeps the canonical form. -/
theorem Memory.write_wf (m : Memory) (a : Nat) (v : Word) (ha : a < ramCells) (h : m.wf = true) : (m.write a v).wf = true := by
  rw [Memory.wf_iff] at h ⊢
  refine ⟨Memory.write_sorted m a v h.1, fun c hc => ?_⟩
  rcases Memory.mem_write m a v c hc with ⟨rfl, hv⟩ | hc
  · exact ⟨ha, hv⟩
  · exact h.2 c hc

/-- A cell of a sorted RAM read after any write (20 R59). -/
theorem Memory.read_write (m : Memory) (a b : Nat) (v : Word) (h : m.Pairwise (fun c d => c.1 < d.1)) :
    (m.write a v).read b = if b = a then v else m.read b := by
  induction m with
  | nil =>
    simp only [Memory.write]
    split <;> split <;> simp_all [Memory.read]
  | cons d rest ih =>
    obtain ⟨k, u⟩ := d
    have hr := List.pairwise_cons.1 h
    simp only [Memory.write]
    split
    · rename_i hak
      have hnone : Memory.read ((k, u) :: rest) a = ramUnlisted :=
        Memory.read_of_lt _ a (fun c hc => by
          rcases List.mem_cons.1 hc with hc | hc
          · subst hc; exact hak
          · exact Nat.lt_trans hak (hr.1 c hc))
      split
      · rename_i hv
        split
        · rename_i hb; rw [hb, hnone, hv]
        · rfl
      · simp only [Memory.read]
    · split
      · rename_i hak
        subst hak
        have hnone : Memory.read rest a = ramUnlisted := Memory.read_of_lt _ a (fun c hc => hr.1 c hc)
        split
        · rename_i hv
          simp only [Memory.read]
          split
          · rename_i hb; rw [hb, hnone, hv]
          · rfl
        · simp only [Memory.read]
          split <;> rfl
      · rename_i h1 h2
        simp only [Memory.read]
        rw [ih hr.2]
        by_cases hb : b = k
        · subst hb; rw [if_pos rfl, if_neg (fun e => h2 e.symm), if_pos rfl]
        · rw [if_neg hb, if_neg hb]

/-- A cell read after a write of it gives the value written. -/
theorem Memory.read_write_same (m : Memory) (a : Nat) (v : Word) (h : m.wf = true) : (m.write a v).read a = v := by
  rw [Memory.read_write m a a v ((Memory.wf_iff m).1 h).1, if_pos rfl]

/-- A write leaves every other cell alone. -/
theorem Memory.read_write_other (m : Memory) (a b : Nat) (v : Word) (h : m.wf = true) (hb : b ≠ a) :
    (m.write a v).read b = m.read b := by
  rw [Memory.read_write m a b v ((Memory.wf_iff m).1 h).1, if_neg hb]

/-- The empty RAM is canonical, so the RAM of the reset state is. -/
theorem Memory.reset_wf : State.reset.ram.wf = true := by decide

/-- The head of a canonical RAM lies below what a canonical tail lists, and the tail is canonical. -/
theorem Memory.wf_cons (c : Nat × Word) (m : Memory) (h : Memory.wf (c :: m) = true) :
    Memory.wf m = true ∧ (∀ d ∈ m, c.1 < d.1) ∧ c.2 ≠ ramUnlisted := by
  rw [Memory.wf_iff] at h
  rw [Memory.wf_iff]
  have hp := List.pairwise_cons.1 h.1
  exact ⟨⟨hp.2, fun d hd => h.2 d (List.mem_cons_of_mem _ hd)⟩, hp.1, (h.2 c List.mem_cons_self).2⟩

/-- Equal contents are equal data: two canonical RAMs that read the same everywhere are the same list. -/
theorem Memory.ext_of_wf (m n : Memory) (hm : m.wf = true) (hn : n.wf = true) (h : ∀ a, m.read a = n.read a) : m = n := by
  induction m generalizing n with
  | nil =>
    cases n with
    | nil => rfl
    | cons d rest =>
      have hd := h d.1
      rw [show Memory.read [] d.1 = ramUnlisted from rfl] at hd
      simp only [Memory.read, if_true] at hd
      exact absurd hd.symm (Memory.wf_cons d rest hn).2.2
  | cons c mrest ih =>
    have hc := Memory.wf_cons c mrest hm
    cases n with
    | nil =>
      have hd := h c.1
      rw [show Memory.read [] c.1 = ramUnlisted from rfl] at hd
      simp only [Memory.read, if_true] at hd
      exact absurd hd hc.2.2
    | cons d nrest =>
      have hd := Memory.wf_cons d nrest hn
      obtain ⟨ca, cv⟩ := c
      obtain ⟨da, dv⟩ := d
      have key : ca = da := by
        rcases Nat.lt_trichotomy ca da with hlt | heq | hgt
        · have := h ca
          rw [Memory.read_of_lt ((da, dv) :: nrest) ca (fun e he => by
            rcases List.mem_cons.1 he with he | he
            · subst he; exact hlt
            · exact Nat.lt_trans hlt (hd.2.1 e he))] at this
          simp only [Memory.read, if_true] at this
          exact absurd this hc.2.2
        · exact heq
        · have := h da
          rw [Memory.read_of_lt ((ca, cv) :: mrest) da (fun e he => by
            rcases List.mem_cons.1 he with he | he
            · subst he; exact hgt
            · exact Nat.lt_trans hgt (hc.2.1 e he))] at this
          simp only [Memory.read, if_true] at this
          exact absurd this.symm hd.2.2
      subst key
      have hv : cv = dv := by simpa [Memory.read] using h ca
      subst hv
      have hrest : ∀ a, Memory.read mrest a = Memory.read nrest a := by
        intro a
        by_cases ha : a = ca
        · subst ha
          rw [Memory.read_of_lt mrest a hc.2.1, Memory.read_of_lt nrest a hd.2.1]
        · simpa [Memory.read, ha] using h a
      rw [ih nrest hc.1 hd.1 hrest]

end Sys2Proof.Machine
end

