-- ==== Sys2Proof/Laws/State.lean ====
section
/-! SUPPORT. What each state update leaves in each field, one lemma per field per update, and the register file. -/

namespace Sys2Proof.Machine

@[simp] theorem State.setReg_regs (s : State) (r : Reg) (v : Word) : (s.setReg r v).regs = s.regs.set r.val v r.isLt := rfl
@[simp] theorem State.setReg_ip (s : State) (r : Reg) (v : Word) : (s.setReg r v).ip = s.ip := rfl
@[simp] theorem State.setReg_flags (s : State) (r : Reg) (v : Word) : (s.setReg r v).flags = s.flags := rfl
@[simp] theorem State.setReg_valueStack (s : State) (r : Reg) (v : Word) : (s.setReg r v).valueStack = s.valueStack := rfl
@[simp] theorem State.setReg_callStack (s : State) (r : Reg) (v : Word) : (s.setReg r v).callStack = s.callStack := rfl
@[simp] theorem State.setReg_program (s : State) (r : Reg) (v : Word) : (s.setReg r v).program = s.program := rfl
@[simp] theorem State.setReg_ram (s : State) (r : Reg) (v : Word) : (s.setReg r v).ram = s.ram := rfl
@[simp] theorem State.setReg_screenH (s : State) (r : Reg) (v : Word) : (s.setReg r v).screenH = s.screenH := rfl
@[simp] theorem State.setReg_screenW (s : State) (r : Reg) (v : Word) : (s.setReg r v).screenW = s.screenW := rfl
@[simp] theorem State.setReg_targetEndOk (s : State) (r : Reg) (v : Word) : (s.setReg r v).targetEndOk = s.targetEndOk := rfl
@[simp] theorem State.setReg_run (s : State) (r : Reg) (v : Word) : (s.setReg r v).run = s.run := rfl
@[simp] theorem State.setReg_inputs (s : State) (r : Reg) (v : Word) : (s.setReg r v).inputs = s.inputs := rfl
@[simp] theorem State.setReg_outputs (s : State) (r : Reg) (v : Word) : (s.setReg r v).outputs = s.outputs := rfl
@[simp] theorem State.setReg_freeCount (s : State) (r : Reg) (v : Word) : (s.setReg r v).freeCount = s.freeCount := rfl

@[simp] theorem State.storeCell_regs (s : State) (a : Nat) (v : Word) : (s.storeCell a v).regs = s.regs := rfl
@[simp] theorem State.storeCell_ip (s : State) (a : Nat) (v : Word) : (s.storeCell a v).ip = s.ip := rfl
@[simp] theorem State.storeCell_flags (s : State) (a : Nat) (v : Word) : (s.storeCell a v).flags = s.flags := rfl
@[simp] theorem State.storeCell_valueStack (s : State) (a : Nat) (v : Word) : (s.storeCell a v).valueStack = s.valueStack := rfl
@[simp] theorem State.storeCell_callStack (s : State) (a : Nat) (v : Word) : (s.storeCell a v).callStack = s.callStack := rfl
@[simp] theorem State.storeCell_program (s : State) (a : Nat) (v : Word) : (s.storeCell a v).program = s.program := rfl
@[simp] theorem State.storeCell_ram (s : State) (a : Nat) (v : Word) : (s.storeCell a v).ram = s.ram.write a v := rfl
@[simp] theorem State.storeCell_screenH (s : State) (a : Nat) (v : Word) : (s.storeCell a v).screenH = s.screenH := rfl
@[simp] theorem State.storeCell_screenW (s : State) (a : Nat) (v : Word) : (s.storeCell a v).screenW = s.screenW := rfl
@[simp] theorem State.storeCell_targetEndOk (s : State) (a : Nat) (v : Word) : (s.storeCell a v).targetEndOk = s.targetEndOk := rfl
@[simp] theorem State.storeCell_run (s : State) (a : Nat) (v : Word) : (s.storeCell a v).run = s.run := rfl
@[simp] theorem State.storeCell_inputs (s : State) (a : Nat) (v : Word) : (s.storeCell a v).inputs = s.inputs := rfl
@[simp] theorem State.storeCell_outputs (s : State) (a : Nat) (v : Word) : (s.storeCell a v).outputs = s.outputs := rfl
@[simp] theorem State.storeCell_freeCount (s : State) (a : Nat) (v : Word) : (s.storeCell a v).freeCount = s.freeCount := rfl

@[simp] theorem State.pushValue_regs (s : State) (v : Word) : (s.pushValue v).regs = s.regs := rfl
@[simp] theorem State.pushValue_ip (s : State) (v : Word) : (s.pushValue v).ip = s.ip := rfl
@[simp] theorem State.pushValue_flags (s : State) (v : Word) : (s.pushValue v).flags = s.flags := rfl
@[simp] theorem State.pushValue_valueStack (s : State) (v : Word) : (s.pushValue v).valueStack = v :: s.valueStack := rfl
@[simp] theorem State.pushValue_callStack (s : State) (v : Word) : (s.pushValue v).callStack = s.callStack := rfl
@[simp] theorem State.pushValue_program (s : State) (v : Word) : (s.pushValue v).program = s.program := rfl
@[simp] theorem State.pushValue_ram (s : State) (v : Word) : (s.pushValue v).ram = s.ram := rfl
@[simp] theorem State.pushValue_screenH (s : State) (v : Word) : (s.pushValue v).screenH = s.screenH := rfl
@[simp] theorem State.pushValue_screenW (s : State) (v : Word) : (s.pushValue v).screenW = s.screenW := rfl
@[simp] theorem State.pushValue_targetEndOk (s : State) (v : Word) : (s.pushValue v).targetEndOk = s.targetEndOk := rfl
@[simp] theorem State.pushValue_run (s : State) (v : Word) : (s.pushValue v).run = s.run := rfl
@[simp] theorem State.pushValue_inputs (s : State) (v : Word) : (s.pushValue v).inputs = s.inputs := rfl
@[simp] theorem State.pushValue_outputs (s : State) (v : Word) : (s.pushValue v).outputs = s.outputs := rfl
@[simp] theorem State.pushValue_freeCount (s : State) (v : Word) : (s.pushValue v).freeCount = s.freeCount := rfl

@[simp] theorem State.advance_regs (s : State) : (s.advance).regs = s.regs := rfl
@[simp] theorem State.advance_ip (s : State) : (s.advance).ip = s.ip + 1 := rfl
@[simp] theorem State.advance_flags (s : State) : (s.advance).flags = s.flags := rfl
@[simp] theorem State.advance_valueStack (s : State) : (s.advance).valueStack = s.valueStack := rfl
@[simp] theorem State.advance_callStack (s : State) : (s.advance).callStack = s.callStack := rfl
@[simp] theorem State.advance_program (s : State) : (s.advance).program = s.program := rfl
@[simp] theorem State.advance_ram (s : State) : (s.advance).ram = s.ram := rfl
@[simp] theorem State.advance_screenH (s : State) : (s.advance).screenH = s.screenH := rfl
@[simp] theorem State.advance_screenW (s : State) : (s.advance).screenW = s.screenW := rfl
@[simp] theorem State.advance_targetEndOk (s : State) : (s.advance).targetEndOk = s.targetEndOk := rfl
@[simp] theorem State.advance_run (s : State) : (s.advance).run = s.run := rfl
@[simp] theorem State.advance_inputs (s : State) : (s.advance).inputs = s.inputs := rfl
@[simp] theorem State.advance_outputs (s : State) : (s.advance).outputs = s.outputs := rfl
@[simp] theorem State.advance_freeCount (s : State) : (s.advance).freeCount = s.freeCount := rfl

@[simp] theorem State.emit_regs (s : State) (evs : List OutEvent) : (s.emit evs).regs = s.regs := rfl
@[simp] theorem State.emit_ip (s : State) (evs : List OutEvent) : (s.emit evs).ip = s.ip := rfl
@[simp] theorem State.emit_flags (s : State) (evs : List OutEvent) : (s.emit evs).flags = s.flags := rfl
@[simp] theorem State.emit_valueStack (s : State) (evs : List OutEvent) : (s.emit evs).valueStack = s.valueStack := rfl
@[simp] theorem State.emit_callStack (s : State) (evs : List OutEvent) : (s.emit evs).callStack = s.callStack := rfl
@[simp] theorem State.emit_program (s : State) (evs : List OutEvent) : (s.emit evs).program = s.program := rfl
@[simp] theorem State.emit_ram (s : State) (evs : List OutEvent) : (s.emit evs).ram = s.ram := rfl
@[simp] theorem State.emit_screenH (s : State) (evs : List OutEvent) : (s.emit evs).screenH = s.screenH := rfl
@[simp] theorem State.emit_screenW (s : State) (evs : List OutEvent) : (s.emit evs).screenW = s.screenW := rfl
@[simp] theorem State.emit_targetEndOk (s : State) (evs : List OutEvent) : (s.emit evs).targetEndOk = s.targetEndOk := rfl
@[simp] theorem State.emit_run (s : State) (evs : List OutEvent) : (s.emit evs).run = s.run := rfl
@[simp] theorem State.emit_inputs (s : State) (evs : List OutEvent) : (s.emit evs).inputs = s.inputs := rfl
@[simp] theorem State.emit_outputs (s : State) (evs : List OutEvent) : (s.emit evs).outputs = s.outputs ++ evs := rfl
@[simp] theorem State.emit_freeCount (s : State) (evs : List OutEvent) : (s.emit evs).freeCount = s.freeCount := rfl

@[simp] theorem State.setFree_regs (s : State) (r : Reg) : (s.setFree r).regs = s.regs.set r.val (Config.freeWord s.freeCount) r.isLt := rfl
@[simp] theorem State.setFree_ip (s : State) (r : Reg) : (s.setFree r).ip = s.ip := rfl
@[simp] theorem State.setFree_flags (s : State) (r : Reg) : (s.setFree r).flags = s.flags := rfl
@[simp] theorem State.setFree_valueStack (s : State) (r : Reg) : (s.setFree r).valueStack = s.valueStack := rfl
@[simp] theorem State.setFree_callStack (s : State) (r : Reg) : (s.setFree r).callStack = s.callStack := rfl
@[simp] theorem State.setFree_program (s : State) (r : Reg) : (s.setFree r).program = s.program := rfl
@[simp] theorem State.setFree_ram (s : State) (r : Reg) : (s.setFree r).ram = s.ram := rfl
@[simp] theorem State.setFree_screenH (s : State) (r : Reg) : (s.setFree r).screenH = s.screenH := rfl
@[simp] theorem State.setFree_screenW (s : State) (r : Reg) : (s.setFree r).screenW = s.screenW := rfl
@[simp] theorem State.setFree_targetEndOk (s : State) (r : Reg) : (s.setFree r).targetEndOk = s.targetEndOk := rfl
@[simp] theorem State.setFree_run (s : State) (r : Reg) : (s.setFree r).run = s.run := rfl
@[simp] theorem State.setFree_inputs (s : State) (r : Reg) : (s.setFree r).inputs = s.inputs := rfl
@[simp] theorem State.setFree_outputs (s : State) (r : Reg) : (s.setFree r).outputs = s.outputs := rfl
@[simp] theorem State.setFree_freeCount (s : State) (r : Reg) : (s.setFree r).freeCount = s.freeCount + 1 := rfl

@[simp] theorem State.raise_regs (s : State) (f : Failure) : (s.raise f).regs = s.regs := rfl
@[simp] theorem State.raise_ip (s : State) (f : Failure) : (s.raise f).ip = s.ip := rfl
@[simp] theorem State.raise_flags (s : State) (f : Failure) : (s.raise f).flags = s.flags := rfl
@[simp] theorem State.raise_valueStack (s : State) (f : Failure) : (s.raise f).valueStack = s.valueStack := rfl
@[simp] theorem State.raise_callStack (s : State) (f : Failure) : (s.raise f).callStack = s.callStack := rfl
@[simp] theorem State.raise_program (s : State) (f : Failure) : (s.raise f).program = s.program := rfl
@[simp] theorem State.raise_ram (s : State) (f : Failure) : (s.raise f).ram = s.ram := rfl
@[simp] theorem State.raise_screenH (s : State) (f : Failure) : (s.raise f).screenH = s.screenH := rfl
@[simp] theorem State.raise_screenW (s : State) (f : Failure) : (s.raise f).screenW = s.screenW := rfl
@[simp] theorem State.raise_targetEndOk (s : State) (f : Failure) : (s.raise f).targetEndOk = s.targetEndOk := rfl
@[simp] theorem State.raise_run (s : State) (f : Failure) : (s.raise f).run = .faulted f := rfl
@[simp] theorem State.raise_inputs (s : State) (f : Failure) : (s.raise f).inputs = s.inputs := rfl
@[simp] theorem State.raise_outputs (s : State) (f : Failure) : (s.raise f).outputs = s.outputs := rfl
@[simp] theorem State.raise_freeCount (s : State) (f : Failure) : (s.raise f).freeCount = s.freeCount := rfl

/-- A register read after a write of it gives the value written. -/
@[simp] theorem State.getReg_setReg_same (s : State) (r : Reg) (v : Word) : (s.setReg r v).getReg r = v := by
  simp [State.getReg, State.setReg, Vector.get_eq_getElem]

/-- A write of a register leaves every other register alone (10 R27: none aliases another). -/
theorem State.getReg_setReg_other (s : State) (r q : Reg) (v : Word) (h : q ≠ r) : (s.setReg r v).getReg q = s.getReg q := by
  have hv : r.val ≠ q.val := fun e => h (Fin.ext e.symm)
  simp [State.getReg, State.setReg, Vector.get_eq_getElem, hv]

/-- A register read after any register write. -/
theorem State.getReg_setReg (s : State) (r q : Reg) (v : Word) :
    (s.setReg r v).getReg q = if q = r then v else s.getReg q := by
  by_cases h : q = r
  · subst h; simp
  · simp [h, State.getReg_setReg_other]

/-- Reading registers sees only the register file. -/
theorem State.getReg_congr (s t : State) (h : s.regs = t.regs) (r : Reg) : s.getReg r = t.getReg r := by
  simp [State.getReg, h]

/-- A register write changes the register file only. -/
@[simp] theorem State.setReg_with_regs (s : State) (r : Reg) (v : Word) : { s.setReg r v with regs := s.regs } = s := rfl

/-- A register write is the register result it is named for. -/
theorem State.setReg_regResult (s : State) (r : Reg) (v : Word) : State.RegResult s (s.setReg r v) r v :=
  ⟨by simp, fun q h => State.getReg_setReg_other s r q v h, rfl⟩

/-- A free register write leaves the other registers alone. -/
theorem State.getReg_setFree_other (s : State) (r q : Reg) (h : q ≠ r) : (s.setFree r).getReg q = s.getReg q :=
  State.getReg_setReg_other _ r q _ h

/-- A free register write is the free result it is named for. -/
theorem State.setFree_regFree (s : State) (r : Reg) : State.RegFree s (s.setFree r) r :=
  ⟨fun q h => State.getReg_setFree_other s r q h, rfl, rfl⟩

/-- The host's value when one is queued. -/
@[simp] theorem State.takeInput_cons (s : State) (v : Word) (rest : List Word) (h : s.inputs = v :: rest) :
    s.takeInput = (v, { s with inputs := rest }) := by
  simp [State.takeInput, h]

/-- The host's value when none is queued: a free value. -/
@[simp] theorem State.takeInput_nil (s : State) (h : s.inputs = []) : s.takeInput = s.takeFree := by
  simp [State.takeInput, h]

end Sys2Proof.Machine
end

