-- ==== Sys2Proof/Laws/Ops.lean ====
section
/-! SUPPORT. One lemma per shared operation, saying once everything it can do; the square root; and what one step can do. -/

namespace Sys2Proof.Machine

/-! ### How a handler ends -/

/-- A handler that succeeds ends in the state it computed. -/
@[simp] theorem State.complete_ok (s t : State) : s.complete (.ok t) = .next t := rfl

/-- A handler that fails ends Faulted in the state it started from. -/
@[simp] theorem State.complete_error (s : State) (f : Failure) : s.complete (.error f) = .next (s.raise f) := rfl

/-- What a handler's end can be. -/
theorem State.complete_cases (s t : State) (r : Except Failure State) (h : s.complete r = .next t) :
    r = .ok t ∨ ∃ f, r = .error f ∧ t = s.raise f := by
  cases r with
  | ok u => simp at h; exact .inl (by rw [h])
  | error f => simp at h; exact .inr ⟨f, rfl, h.symm⟩

/-- A computation in `Except` that succeeds has a first part that succeeds. -/
theorem bind_eq_ok {α β : Type} (x : Except Failure α) (g : α → Except Failure β) (b : β) :
    (x >>= g) = .ok b ↔ ∃ a, x = .ok a ∧ g a = .ok b := by
  cases x <;> simp [bind, Except.bind]

/-- A computation in `Except` that fails, fails in its first part or after it. -/
theorem bind_eq_error {α β : Type} (x : Except Failure α) (g : α → Except Failure β) (f : Failure) :
    (x >>= g) = .error f ↔ x = .error f ∨ ∃ a, x = .ok a ∧ g a = .error f := by
  cases x <;> simp [bind, Except.bind]

/-! ### Stacks -/

/-- What popping the value stack can do. -/
theorem State.popValue_cases (s : State) :
    (s.valueStack = [] ∧ s.popValue = .error (.stackUnderflow .value))
      ∨ ∃ v rest, s.valueStack = v :: rest ∧ s.popValue = .ok (v, { s with valueStack := rest }) := by
  unfold State.popValue
  split
  · rename_i h; exact .inl ⟨h, rfl⟩
  · rename_i v rest h; exact .inr ⟨v, rest, h, rfl⟩

/-- What reading the top of the call stack can do. -/
theorem State.topCall_cases (s : State) :
    (s.callStack = [] ∧ s.topCall = .error (.stackUnderflow .call))
      ∨ ∃ t rest, s.callStack = t :: rest ∧ s.topCall = .ok t := by
  unfold State.topCall
  split
  · rename_i h; exact .inl ⟨h, rfl⟩
  · rename_i t rest h; exact .inr ⟨t, rest, h, rfl⟩

/-- What the capacity test of the call stack can do. -/
theorem State.callRoom_cases (s : State) :
    (1024 ≤ s.callStack.length ∧ s.callRoom = .error (.stackOverflow .call))
      ∨ (s.callStack.length < 1024 ∧ s.callRoom = .ok ()) := by
  unfold State.callRoom callStackCap
  split
  · rename_i h; exact .inl ⟨h, rfl⟩
  · rename_i h; exact .inr ⟨by omega, rfl⟩

/-! ### Bounds and addresses -/

/-- The target bound for either value of `TARGET_END_OK` (46 R312). -/
theorem inBounds_iff (endOk : Bool) (len : Nat) (t : Int) :
    inBounds endOk len t = true ↔ 0 ≤ t ∧ (t < len ∨ (endOk = true ∧ t = len)) := by
  simp [inBounds]

/-- A target in bounds never lies beyond the buffer end. -/
theorem inBounds_le (endOk : Bool) (len n : Nat) (h : inBounds endOk len n = true) : n ≤ len := by
  rcases (inBounds_iff endOk len n).1 h with ⟨-, h | ⟨-, h⟩⟩ <;> omega

/-- What a target check can do. -/
theorem State.checkTarget_cases (s : State) (t : Int) :
    (inBounds s.targetEndOk s.program.length t = true ∧ s.checkTarget t = .ok t.toNat)
      ∨ (inBounds s.targetEndOk s.program.length t = false ∧ s.checkTarget t = .error (.outOfBounds t)) := by
  unfold State.checkTarget
  cases inBounds s.targetEndOk s.program.length t
  · exact .inr ⟨rfl, rfl⟩
  · exact .inl ⟨rfl, rfl⟩

/-- A checked target is the one asked for, and in bounds. -/
theorem State.checkTarget_ok (s : State) (t : Int) (n : Nat) (h : s.checkTarget t = .ok n) :
    inBounds s.targetEndOk s.program.length n = true ∧ (n : Int) = t := by
  rcases s.checkTarget_cases t with ⟨h1, h2⟩ | ⟨-, h2⟩ <;> rw [h2] at h <;> cases h
  have e : (t.toNat : Int) = t := Int.toNat_of_nonneg ((inBounds_iff _ _ _).1 h1).1
  exact ⟨by rw [e]; exact h1, e⟩

/-- What an effective-address computation can do (46 R321). -/
theorem effectiveAddress_cases (x : Word) :
    (0 ≤ x.toInt ∧ x.toInt < 1048576 ∧ effectiveAddress x = .ok x.toInt.toNat)
      ∨ (¬(0 ≤ x.toInt ∧ x.toInt < 1048576) ∧ effectiveAddress x = .error (.outOfBounds x.toInt)) := by
  by_cases h : 0 ≤ x.toInt ∧ x.toInt < 1048576
  · exact .inl ⟨h.1, h.2, if_pos h⟩
  · exact .inr ⟨h, if_neg h⟩

/-- An effective address lies in the RAM. -/
theorem effectiveAddress_ok_lt (x : Word) (a : Nat) (h : effectiveAddress x = .ok a) : a < ramCells ∧ (a : Int) = x.toInt := by
  rcases effectiveAddress_cases x with ⟨h1, h2, h3⟩ | ⟨-, h3⟩
  · rw [h3] at h; cases h; unfold ramCells; omega
  · rw [h3] at h; cases h

/-- What the region check of `draw` can do (46 R327). -/
theorem drawBase_cases (x : Word) (n : Nat) :
    (0 ≤ x.toInt ∧ x.toInt + n ≤ 1048576 ∧ drawBase x n = .ok x.toInt.toNat)
      ∨ (¬(0 ≤ x.toInt ∧ x.toInt + n ≤ 1048576) ∧ drawBase x n = .error (.outOfBounds x.toInt)) := by
  by_cases h : 0 ≤ x.toInt ∧ x.toInt + n ≤ 1048576
  · exact .inl ⟨h.1, h.2, if_pos h⟩
  · exact .inr ⟨h, if_neg h⟩

/-! ### Division and shifts -/

/-- What a division or remainder can do (45 R278, R279). -/
theorem State.divide_cases (s : State) (f : Word → Word → Word) (rd rl rr : Reg) :
    (s.getReg rr = 0 ∧ s.divide f rd rl rr = .error .divisionByZero)
      ∨ (s.getReg rr ≠ 0 ∧ divCorner (s.getReg rl) (s.getReg rr) = true ∧ s.divide f rd rl rr = .ok (s.setFree rd))
      ∨ (s.getReg rr ≠ 0 ∧ divCorner (s.getReg rl) (s.getReg rr) = false
          ∧ s.divide f rd rl rr = .ok (s.setReg rd (f (s.getReg rl) (s.getReg rr)))) := by
  unfold State.divide
  by_cases h0 : s.getReg rr = 0
  · exact .inl ⟨h0, if_pos h0⟩
  · by_cases hc : divCorner (s.getReg rl) (s.getReg rr) = true
    · exact .inr (.inl ⟨h0, hc, by rw [if_neg h0, if_pos hc]⟩)
    · exact .inr (.inr ⟨h0, by simpa using hc, by rw [if_neg h0, if_neg hc]; rfl⟩)

/-- What a shift can do (45 R280, R281). -/
theorem State.shift_cases (s : State) (f : Word → Nat → Word) (rd rl rr : Reg) :
    (64 ≤ (s.getReg rr).toNat ∧ s.shift f rd rl rr = s.setFree rd)
      ∨ ((s.getReg rr).toNat < 64 ∧ s.shift f rd rl rr = s.setReg rd (f (s.getReg rl) (s.getReg rr).toNat)) := by
  by_cases h : 64 ≤ (s.getReg rr).toNat
  · exact .inl ⟨h, if_pos h⟩
  · exact .inr ⟨by omega, if_neg h⟩

/-- What the host's input can be: the next queued value, or a free value. -/
theorem State.takeInput_cases (s : State) :
    (∃ v rest, s.inputs = v :: rest ∧ s.takeInput = (v, { s with inputs := rest }))
      ∨ (s.inputs = [] ∧ s.takeInput = (Config.freeWord s.freeCount, { s with freeCount := s.freeCount + 1 })) := by
  unfold State.takeInput
  split
  · rename_i v rest h; exact .inl ⟨v, rest, h, rfl⟩
  · rename_i h; exact .inr ⟨h, rfl⟩

/-! ### Square root -/

/-- The digit-by-digit root from a partial root: the result is the root whenever the root lies within the digits left. -/
theorem isqrtFrom_spec (n : Nat) : ∀ k r, r * r ≤ n → n < (r + 2 ^ k) * (r + 2 ^ k) →
    isqrtFrom n k r * isqrtFrom n k r ≤ n ∧ n < (isqrtFrom n k r + 1) * (isqrtFrom n k r + 1)
  | 0, r, h1, h2 => ⟨h1, by simpa [isqrtFrom] using h2⟩
  | k + 1, r, h1, h2 => by
    simp only [isqrtFrom]
    split
    · rename_i h
      refine isqrtFrom_spec n k (r + 2 ^ k) h ?_
      have e : r + 2 ^ k + 2 ^ k = r + 2 ^ (k + 1) := by rw [Nat.pow_succ]; omega
      rw [e]; exact h2
    · rename_i h
      exact isqrtFrom_spec n k r h1 (Nat.lt_of_not_le h)

/-- The integer square root is the floor of the root, for every 64-bit operand (45 R272). -/
theorem isqrt_spec (n : Nat) (h : n < 2 ^ 64) : isqrt n * isqrt n ≤ n ∧ n < (isqrt n + 1) * (isqrt n + 1) :=
  isqrtFrom_spec n 32 0 (by omega) (by
    have e : ((0 : Nat) + 2 ^ 32) * (0 + 2 ^ 32) = 2 ^ 64 := by decide
    omega)

/-! ### One step -/

/-- What one step of a running engine can do, at any configuration (46 R310, R330). -/
theorem engineStep_running (C : Codec) (s : State) (h : s.run = .running) :
    (s.ip = s.program.length ∧ engineStep C s = .next { s with run := .halted })
      ∨ (s.program.length < s.ip ∧ engineStep C s = .fault .ipBeyondBuffer)
      ∨ ∃ w, s.program[s.ip]? = some w ∧ s.ip < s.program.length
          ∧ ((∃ f, decodeWith C w = .error f ∧ engineStep C s = .next (s.advance.raise f))
            ∨ (∃ i, decodeWith C w = .ok i ∧ engineStep C s = exec i s.advance)) := by
  unfold engineStep
  rw [h]
  by_cases he : s.ip = s.program.length
  · exact .inl ⟨he, by simp [he]⟩
  · simp only [he, if_false]
    cases hf : s.fetch with
    | none =>
      have : s.program.length ≤ s.ip := by simpa [State.fetch] using hf
      exact .inr (.inl ⟨by omega, rfl⟩)
    | some w =>
      have hw : s.program[s.ip]? = some w := hf
      have hlt : s.ip < s.program.length := by
        rcases Nat.lt_or_ge s.ip s.program.length with h1 | h1
        · exact h1
        · rw [List.getElem?_eq_none h1] at hw; cases hw
      refine .inr (.inr ⟨w, hw, hlt, ?_⟩)
      cases hd : decodeWith C w with
      | error f => exact .inl ⟨f, rfl, by simp [hd]⟩
      | ok i => exact .inr ⟨i, rfl, by simp [hd]⟩

/-- An engine whose run has ended has no step, at any configuration (60 R368). -/
theorem engineStep_final (C : Codec) (s : State) (h : s.run ≠ .running) : engineStep C s = .fault .notRunning := by
  unfold engineStep
  cases hr : s.run with
  | running => exact absurd hr h
  | halted => rfl
  | faulted f => rfl

/-- What one step of the machine can do while it runs. -/
theorem step_running (s : State) (h : s.run = .running) :
    (s.ip = s.program.length ∧ step s = .next { s with run := .halted })
      ∨ (s.program.length < s.ip ∧ step s = .fault .ipBeyondBuffer)
      ∨ ∃ w, s.program[s.ip]? = some w ∧ s.ip < s.program.length
          ∧ ((∃ f, decode w = .error f ∧ step s = .next (s.advance.raise f))
            ∨ (∃ i, decode w = .ok i ∧ step s = exec i s.advance)) :=
  engineStep_running refCodec s h

/-- A machine whose run has ended has no step (60 R368). -/
theorem step_final (s : State) (h : s.run ≠ .running) : step s = .fault .notRunning := engineStep_final refCodec s h

end Sys2Proof.Machine
end

