-- ==== Sys2Proof/Laws/Exec.lean ====
section
/-! SUPPORT. Once, everything an instruction can do: it fails and leaves the state but for the run state, or it has its effect. -/

namespace Sys2Proof.Machine

/-- What a division or remainder that succeeds has done (45 R278, R279). -/
theorem State.divide_ok (s u : State) (f : Word → Word → Word) (rd rl rr : Reg) (h : s.divide f rd rl rr = .ok u) :
    s.getReg rr ≠ 0 ∧ ((divCorner (s.getReg rl) (s.getReg rr) = true ∧ u = s.setFree rd)
      ∨ (divCorner (s.getReg rl) (s.getReg rr) = false ∧ u = s.setReg rd (f (s.getReg rl) (s.getReg rr)))) := by
  unfold State.divide at h
  split at h
  · cases h
  · rename_i hz
    refine ⟨hz, ?_⟩
    split at h <;> rename_i hc <;> cases h
    · exact .inl ⟨hc, rfl⟩
    · exact .inr ⟨by simpa using hc, rfl⟩

/-- What an instruction that answers a next state has done. -/
theorem exec_cases (i : Instr) (s t : State) (h : exec i s = .next t) :
    (∃ f, t = s.raise f) ∨
    (match i with
     | .mov rd rn => t = s.setReg rd (s.getReg rn)
     | .ldc rd imm => t = s.setReg rd (constant imm)
     | .jmp cond off => ∃ c, condOfCode cond.val = some c ∧
         ((condHolds c s.flags = false ∧ t = s)
           ∨ (condHolds c s.flags = true ∧ ∃ n : Nat, inBounds s.targetEndOk s.program.length n = true ∧ (n : Int) = (s.ip : Int) + off
             ∧ t = { s with ip := n }))
     | .call _ off => s.callStack.length < 1024 ∧ ∃ n : Nat, inBounds s.targetEndOk s.program.length n = true ∧ (n : Int) = (s.ip : Int) + off
         ∧ t = { s with callStack := s.ip :: s.callStack, ip := n }
     | .sqrt rd rn => 0 ≤ (s.getReg rn).toInt ∧ t = s.setReg rd (BitVec.ofNat 64 (isqrt (s.getReg rn).toNat))
     | .not rd rn => t = s.setReg rd (~~~(s.getReg rn))
     | .add rd rl rr => t = s.setReg rd (addWord (s.getReg rl) (s.getReg rr))
     | .sub rd rl rr => t = s.setReg rd (subWord (s.getReg rl) (s.getReg rr))
     | .mul rd rl rr => t = s.setReg rd (mulWord (s.getReg rl) (s.getReg rr))
     | .div rd rl rr => s.getReg rr ≠ 0 ∧ ((divCorner (s.getReg rl) (s.getReg rr) = true ∧ t = s.setFree rd)
         ∨ (divCorner (s.getReg rl) (s.getReg rr) = false ∧ t = s.setReg rd (divWord (s.getReg rl) (s.getReg rr))))
     | .mod rd rl rr => s.getReg rr ≠ 0 ∧ ((divCorner (s.getReg rl) (s.getReg rr) = true ∧ t = s.setFree rd)
         ∨ (divCorner (s.getReg rl) (s.getReg rr) = false ∧ t = s.setReg rd (modWord (s.getReg rl) (s.getReg rr))))
     | .shl rd rl rr => (64 ≤ (s.getReg rr).toNat ∧ t = s.setFree rd)
         ∨ ((s.getReg rr).toNat < 64 ∧ t = s.setReg rd (shlWord (s.getReg rl) (s.getReg rr).toNat))
     | .shr rd rl rr => (64 ≤ (s.getReg rr).toNat ∧ t = s.setFree rd)
         ∨ ((s.getReg rr).toNat < 64 ∧ t = s.setReg rd (shrWord (s.getReg rl) (s.getReg rr).toNat))
     | .or rd rl rr => t = s.setReg rd (s.getReg rl ||| s.getReg rr)
     | .xor rd rl rr => t = s.setReg rd (s.getReg rl ^^^ s.getReg rr)
     | .and rd rl rr => t = s.setReg rd (s.getReg rl &&& s.getReg rr)
     | .cmp rd rn => t = { s with flags := compareFlags (s.getReg rd) (s.getReg rn) }
     | .ret => ∃ (n : Nat) (rest : List Nat), s.callStack = n :: rest ∧ inBounds s.targetEndOk s.program.length n = true
         ∧ t = { s with callStack := rest, ip := n }
     | .pushr rd => t = s.pushValue (s.getReg rd)
     | .popr rd => ∃ v rest, s.valueStack = v :: rest ∧ t = State.setReg { s with valueStack := rest } rd v
     | .ldm rd rn => ∃ a, effectiveAddress (s.getReg rd) = .ok a ∧ t = s.setReg rn (s.ram.read a)
     | .stm rd rn => ∃ a, effectiveAddress (s.getReg rd) = .ok a ∧ t = s.storeCell a (s.getReg rn)
     | .input rd => (∃ v rest, s.inputs = v :: rest ∧ t = State.setReg { s with inputs := rest } rd v)
         ∨ (s.inputs = [] ∧ t = s.setFree rd)
     | .print rd => t = s.emit [.int (s.getReg rd)]
     | .scrhw rd rn => t = (s.setReg rd (BitVec.ofNat 64 s.screenH)).setReg rn (BitVec.ofNat 64 s.screenW)
     | .draw rd => ∃ a, drawBase (s.getReg rd) (s.screenH * s.screenW) = .ok a
         ∧ t = s.emit (drawEvents s.ram a s.screenH (s.screenH * s.screenW))
     | .dump => t = s.emit [.dump s.snapshot]
     | .halt => t = { s with run := .halted }) := by
  cases i with
  | mov rd rn => cases h; exact .inr rfl
  | ldc rd imm => cases h; exact .inr rfl
  | jmp cond off =>
    rcases State.complete_cases _ _ _ h with h | ⟨f, -, h⟩
    · refine .inr ?_
      split at h
      · cases h
      · rename_i c hc
        refine ⟨c, hc, ?_⟩
        split at h
        · rename_i hh
          obtain ⟨n, h1, h2⟩ := (bind_eq_ok _ _ _).1 h
          obtain ⟨h3, h4⟩ := State.checkTarget_ok _ _ _ h1
          cases h2
          exact .inr ⟨hh, n, h3, h4, rfl⟩
        · rename_i hh
          cases h
          exact .inl ⟨by simpa using hh, rfl⟩
    · exact .inl ⟨f, h⟩
  | call cond off =>
    rcases State.complete_cases _ _ _ h with h | ⟨f, -, h⟩
    · obtain ⟨_, h0, h⟩ := (bind_eq_ok _ _ _).1 h
      obtain ⟨n, h1, h2⟩ := (bind_eq_ok _ _ _).1 h
      obtain ⟨h3, h4⟩ := State.checkTarget_ok _ _ _ h1
      cases h2
      rcases s.callRoom_cases with ⟨-, h5⟩ | ⟨h5, -⟩
      · rw [h5] at h0; cases h0
      · exact .inr ⟨h5, n, h3, h4, rfl⟩
    · exact .inl ⟨f, h⟩
  | sqrt rd rn =>
    rcases State.complete_cases _ _ _ h with h | ⟨f, -, h⟩
    · split at h
      · cases h
      · rename_i hn; cases h; exact .inr ⟨Int.not_lt.1 hn, rfl⟩
    · exact .inl ⟨f, h⟩
  | not rd rn => cases h; exact .inr rfl
  | add rd rl rr => cases h; exact .inr rfl
  | sub rd rl rr => cases h; exact .inr rfl
  | mul rd rl rr => cases h; exact .inr rfl
  | div rd rl rr =>
    rcases State.complete_cases _ _ _ h with h | ⟨f, -, h⟩
    · exact .inr (State.divide_ok _ _ _ _ _ _ h)
    · exact .inl ⟨f, h⟩
  | mod rd rl rr =>
    rcases State.complete_cases _ _ _ h with h | ⟨f, -, h⟩
    · exact .inr (State.divide_ok _ _ _ _ _ _ h)
    · exact .inl ⟨f, h⟩
  | shl rd rl rr =>
    rcases s.shift_cases shlWord rd rl rr with ⟨h1, h2⟩ | ⟨h1, h2⟩ <;> cases h
    · exact .inr (.inl ⟨h1, h2⟩)
    · exact .inr (.inr ⟨h1, h2⟩)
  | shr rd rl rr =>
    rcases s.shift_cases shrWord rd rl rr with ⟨h1, h2⟩ | ⟨h1, h2⟩ <;> cases h
    · exact .inr (.inl ⟨h1, h2⟩)
    · exact .inr (.inr ⟨h1, h2⟩)
  | or rd rl rr => cases h; exact .inr rfl
  | xor rd rl rr => cases h; exact .inr rfl
  | and rd rl rr => cases h; exact .inr rfl
  | cmp rd rn => cases h; exact .inr rfl
  | ret =>
    rcases State.complete_cases _ _ _ h with h | ⟨f, -, h⟩
    · obtain ⟨top, h0, h⟩ := (bind_eq_ok _ _ _).1 h
      obtain ⟨n, h1, h2⟩ := (bind_eq_ok _ _ _).1 h
      obtain ⟨h3, h4⟩ := State.checkTarget_ok _ _ _ h1
      cases h2
      rcases s.topCall_cases with ⟨-, h5⟩ | ⟨m, rest, h5, h6⟩
      · rw [h5] at h0; cases h0
      · rw [h6] at h0
        have em : m = top := by simpa using h0
        subst em
        have e : n = m := by omega
        rw [← e] at h5
        exact .inr ⟨n, rest, h5, h3, by rw [h5]; rfl⟩
    · exact .inl ⟨f, h⟩
  | pushr rd => cases h; exact .inr rfl
  | popr rd =>
    rcases State.complete_cases _ _ _ h with h | ⟨f, -, h⟩
    · obtain ⟨p, h0, h⟩ := (bind_eq_ok _ _ _).1 h
      rcases s.popValue_cases with ⟨-, h5⟩ | ⟨v, rest, h5, h6⟩
      · rw [h5] at h0; cases h0
      · rw [h6] at h0
        cases h0; cases h
        exact .inr ⟨v, rest, h5, rfl⟩
    · exact .inl ⟨f, h⟩
  | ldm rd rn =>
    rcases State.complete_cases _ _ _ h with h | ⟨f, -, h⟩
    · obtain ⟨a, h1, h2⟩ := (bind_eq_ok _ _ _).1 h
      cases h2; exact .inr ⟨a, h1, rfl⟩
    · exact .inl ⟨f, h⟩
  | stm rd rn =>
    rcases State.complete_cases _ _ _ h with h | ⟨f, -, h⟩
    · obtain ⟨a, h1, h2⟩ := (bind_eq_ok _ _ _).1 h
      cases h2; exact .inr ⟨a, h1, rfl⟩
    · exact .inl ⟨f, h⟩
  | input rd =>
    cases h
    rcases s.takeInput_cases with ⟨v, rest, hi, ht⟩ | ⟨hi, ht⟩
    · exact .inr (.inl ⟨v, rest, hi, by rw [ht]⟩)
    · exact .inr (.inr ⟨hi, by rw [ht]; rfl⟩)
  | print rd => cases h; exact .inr rfl
  | scrhw rd rn => cases h; exact .inr rfl
  | draw rd =>
    rcases State.complete_cases _ _ _ h with h | ⟨f, -, h⟩
    · obtain ⟨a, h1, h2⟩ := (bind_eq_ok _ _ _).1 h
      cases h2; exact .inr ⟨a, h1, rfl⟩
    · exact .inl ⟨f, h⟩
  | dump => cases h; exact .inr rfl
  | halt => cases h; exact .inr rfl

end Sys2Proof.Machine
end

