-- ==== Sys2Proof/Laws/PerInstr.lean ====
section
/-! SUPPORT. What is shown of each instruction as syntax, one lemma per constructor. -/

namespace Sys2Proof.Laws

/-- The decoded instruction of `i` carries its opcode and all of its operands: the handler of `i` binds it back to `i`, it is valid exactly
when `i` is well-formed (for an opcode that fits both spaces), and the reference table has a command of that handler and shape. -/
def OperandsBind.Statement (i : Instr) : Prop :=
  (∀ o, bindHandler i.handler (i.decoded o) = .ok i ∧ (i.decoded o).opcode = o)
    ∧ (∀ o, o < 64 → (i.decoded o).valid = i.wellFormed)
    ∧ (∀ o, ∃ c ∈ refTable, c.handler = i.handler ∧ c.shape = (i.decoded o).shape)

/-- A register is read back from its number. -/
theorem asReg_val (r : Reg) : asReg r.val = .ok r := by simp [asReg]

theorem OperandsBind.mov (a b : Reg) : OperandsBind.Statement (.mov a b) := by
  refine ⟨fun o => ⟨?_, rfl⟩, fun o ho => ?_, fun o => ⟨refTable[0], by decide, rfl, rfl⟩⟩
  · simp [bindHandler, Instr.handler, Instr.decoded, asMove, asReg_val, bind, Except.bind]
  · simp [Instr.decoded, DecodedInstr.valid, Instr.wellFormed]; omega

theorem OperandsBind.ldc (a : Reg) (b : Int) : OperandsBind.Statement (.ldc a b) := by
  refine ⟨fun o => ⟨?_, rfl⟩, fun o ho => ?_, fun o => ⟨refTable[1], by decide, rfl, rfl⟩⟩
  · simp [bindHandler, Instr.handler, Instr.decoded, asLdc, asReg_val, bind, Except.bind]
  · simp [Instr.decoded, DecodedInstr.valid, Instr.wellFormed]; omega

theorem OperandsBind.jmp (a : Fin 32) (b : Int) : OperandsBind.Statement (.jmp a b) := by
  refine ⟨fun o => ⟨?_, rfl⟩, fun o ho => ?_, fun o => ⟨refTable[2], by decide, rfl, rfl⟩⟩
  · simp [bindHandler, Instr.handler, Instr.decoded, asJump, asReg_val, bind, Except.bind]
  · simp [Instr.decoded, DecodedInstr.valid, Instr.wellFormed]; omega

theorem OperandsBind.call (a : Fin 32) (b : Int) : OperandsBind.Statement (.call a b) := by
  refine ⟨fun o => ⟨?_, rfl⟩, fun o ho => ?_, fun o => ⟨refTable[3], by decide, rfl, rfl⟩⟩
  · simp [bindHandler, Instr.handler, Instr.decoded, asJump, asReg_val, bind, Except.bind]
  · simp [Instr.decoded, DecodedInstr.valid, Instr.wellFormed]; omega

theorem OperandsBind.sqrt (a b : Reg) : OperandsBind.Statement (.sqrt a b) := by
  refine ⟨fun o => ⟨?_, rfl⟩, fun o ho => ?_, fun o => ⟨refTable[4], by decide, rfl, rfl⟩⟩
  · simp [bindHandler, Instr.handler, Instr.decoded, asDouble, asReg_val, bind, Except.bind]
  · simp [Instr.decoded, DecodedInstr.valid, Instr.wellFormed]; omega

theorem OperandsBind.not (a b : Reg) : OperandsBind.Statement (.not a b) := by
  refine ⟨fun o => ⟨?_, rfl⟩, fun o ho => ?_, fun o => ⟨refTable[5], by decide, rfl, rfl⟩⟩
  · simp [bindHandler, Instr.handler, Instr.decoded, asDouble, asReg_val, bind, Except.bind]
  · simp [Instr.decoded, DecodedInstr.valid, Instr.wellFormed]; omega

theorem OperandsBind.add (a b c : Reg) : OperandsBind.Statement (.add a b c) := by
  refine ⟨fun o => ⟨?_, rfl⟩, fun o ho => ?_, fun o => ⟨refTable[6], by decide, rfl, rfl⟩⟩
  · simp [bindHandler, Instr.handler, Instr.decoded, asTriple, asReg_val, bind, Except.bind]
  · simp [Instr.decoded, DecodedInstr.valid, Instr.wellFormed]; omega

theorem OperandsBind.sub (a b c : Reg) : OperandsBind.Statement (.sub a b c) := by
  refine ⟨fun o => ⟨?_, rfl⟩, fun o ho => ?_, fun o => ⟨refTable[7], by decide, rfl, rfl⟩⟩
  · simp [bindHandler, Instr.handler, Instr.decoded, asTriple, asReg_val, bind, Except.bind]
  · simp [Instr.decoded, DecodedInstr.valid, Instr.wellFormed]; omega

theorem OperandsBind.mul (a b c : Reg) : OperandsBind.Statement (.mul a b c) := by
  refine ⟨fun o => ⟨?_, rfl⟩, fun o ho => ?_, fun o => ⟨refTable[8], by decide, rfl, rfl⟩⟩
  · simp [bindHandler, Instr.handler, Instr.decoded, asTriple, asReg_val, bind, Except.bind]
  · simp [Instr.decoded, DecodedInstr.valid, Instr.wellFormed]; omega

theorem OperandsBind.div (a b c : Reg) : OperandsBind.Statement (.div a b c) := by
  refine ⟨fun o => ⟨?_, rfl⟩, fun o ho => ?_, fun o => ⟨refTable[9], by decide, rfl, rfl⟩⟩
  · simp [bindHandler, Instr.handler, Instr.decoded, asTriple, asReg_val, bind, Except.bind]
  · simp [Instr.decoded, DecodedInstr.valid, Instr.wellFormed]; omega

theorem OperandsBind.mod (a b c : Reg) : OperandsBind.Statement (.mod a b c) := by
  refine ⟨fun o => ⟨?_, rfl⟩, fun o ho => ?_, fun o => ⟨refTable[10], by decide, rfl, rfl⟩⟩
  · simp [bindHandler, Instr.handler, Instr.decoded, asTriple, asReg_val, bind, Except.bind]
  · simp [Instr.decoded, DecodedInstr.valid, Instr.wellFormed]; omega

theorem OperandsBind.shl (a b c : Reg) : OperandsBind.Statement (.shl a b c) := by
  refine ⟨fun o => ⟨?_, rfl⟩, fun o ho => ?_, fun o => ⟨refTable[11], by decide, rfl, rfl⟩⟩
  · simp [bindHandler, Instr.handler, Instr.decoded, asTriple, asReg_val, bind, Except.bind]
  · simp [Instr.decoded, DecodedInstr.valid, Instr.wellFormed]; omega

theorem OperandsBind.shr (a b c : Reg) : OperandsBind.Statement (.shr a b c) := by
  refine ⟨fun o => ⟨?_, rfl⟩, fun o ho => ?_, fun o => ⟨refTable[12], by decide, rfl, rfl⟩⟩
  · simp [bindHandler, Instr.handler, Instr.decoded, asTriple, asReg_val, bind, Except.bind]
  · simp [Instr.decoded, DecodedInstr.valid, Instr.wellFormed]; omega

theorem OperandsBind.or (a b c : Reg) : OperandsBind.Statement (.or a b c) := by
  refine ⟨fun o => ⟨?_, rfl⟩, fun o ho => ?_, fun o => ⟨refTable[13], by decide, rfl, rfl⟩⟩
  · simp [bindHandler, Instr.handler, Instr.decoded, asTriple, asReg_val, bind, Except.bind]
  · simp [Instr.decoded, DecodedInstr.valid, Instr.wellFormed]; omega

theorem OperandsBind.xor (a b c : Reg) : OperandsBind.Statement (.xor a b c) := by
  refine ⟨fun o => ⟨?_, rfl⟩, fun o ho => ?_, fun o => ⟨refTable[14], by decide, rfl, rfl⟩⟩
  · simp [bindHandler, Instr.handler, Instr.decoded, asTriple, asReg_val, bind, Except.bind]
  · simp [Instr.decoded, DecodedInstr.valid, Instr.wellFormed]; omega

theorem OperandsBind.and (a b c : Reg) : OperandsBind.Statement (.and a b c) := by
  refine ⟨fun o => ⟨?_, rfl⟩, fun o ho => ?_, fun o => ⟨refTable[15], by decide, rfl, rfl⟩⟩
  · simp [bindHandler, Instr.handler, Instr.decoded, asTriple, asReg_val, bind, Except.bind]
  · simp [Instr.decoded, DecodedInstr.valid, Instr.wellFormed]; omega

theorem OperandsBind.cmp (a b : Reg) : OperandsBind.Statement (.cmp a b) := by
  refine ⟨fun o => ⟨?_, rfl⟩, fun o ho => ?_, fun o => ⟨refTable[16], by decide, rfl, rfl⟩⟩
  · simp [bindHandler, Instr.handler, Instr.decoded, asDouble, asReg_val, bind, Except.bind]
  · simp [Instr.decoded, DecodedInstr.valid, Instr.wellFormed]; omega

theorem OperandsBind.ret : OperandsBind.Statement .ret := by
  refine ⟨fun o => ⟨?_, rfl⟩, fun o ho => ?_, fun o => ⟨refTable[17], by decide, rfl, rfl⟩⟩
  · simp [bindHandler, Instr.handler, Instr.decoded, asNoarg]
  · simp [Instr.decoded, DecodedInstr.valid, Instr.wellFormed]; omega

theorem OperandsBind.pushr (a : Reg) : OperandsBind.Statement (.pushr a) := by
  refine ⟨fun o => ⟨?_, rfl⟩, fun o ho => ?_, fun o => ⟨refTable[18], by decide, rfl, rfl⟩⟩
  · simp [bindHandler, Instr.handler, Instr.decoded, asSingle, asReg_val, bind, Except.bind]
  · simp [Instr.decoded, DecodedInstr.valid, Instr.wellFormed]; omega

theorem OperandsBind.popr (a : Reg) : OperandsBind.Statement (.popr a) := by
  refine ⟨fun o => ⟨?_, rfl⟩, fun o ho => ?_, fun o => ⟨refTable[19], by decide, rfl, rfl⟩⟩
  · simp [bindHandler, Instr.handler, Instr.decoded, asSingle, asReg_val, bind, Except.bind]
  · simp [Instr.decoded, DecodedInstr.valid, Instr.wellFormed]; omega

theorem OperandsBind.ldm (a b : Reg) : OperandsBind.Statement (.ldm a b) := by
  refine ⟨fun o => ⟨?_, rfl⟩, fun o ho => ?_, fun o => ⟨refTable[20], by decide, rfl, rfl⟩⟩
  · simp [bindHandler, Instr.handler, Instr.decoded, asDouble, asReg_val, bind, Except.bind]
  · simp [Instr.decoded, DecodedInstr.valid, Instr.wellFormed]; omega

theorem OperandsBind.stm (a b : Reg) : OperandsBind.Statement (.stm a b) := by
  refine ⟨fun o => ⟨?_, rfl⟩, fun o ho => ?_, fun o => ⟨refTable[21], by decide, rfl, rfl⟩⟩
  · simp [bindHandler, Instr.handler, Instr.decoded, asDouble, asReg_val, bind, Except.bind]
  · simp [Instr.decoded, DecodedInstr.valid, Instr.wellFormed]; omega

theorem OperandsBind.input (a : Reg) : OperandsBind.Statement (.input a) := by
  refine ⟨fun o => ⟨?_, rfl⟩, fun o ho => ?_, fun o => ⟨refTable[22], by decide, rfl, rfl⟩⟩
  · simp [bindHandler, Instr.handler, Instr.decoded, asSingle, asReg_val, bind, Except.bind]
  · simp [Instr.decoded, DecodedInstr.valid, Instr.wellFormed]; omega

theorem OperandsBind.print (a : Reg) : OperandsBind.Statement (.print a) := by
  refine ⟨fun o => ⟨?_, rfl⟩, fun o ho => ?_, fun o => ⟨refTable[23], by decide, rfl, rfl⟩⟩
  · simp [bindHandler, Instr.handler, Instr.decoded, asSingle, asReg_val, bind, Except.bind]
  · simp [Instr.decoded, DecodedInstr.valid, Instr.wellFormed]; omega

theorem OperandsBind.scrhw (a b : Reg) : OperandsBind.Statement (.scrhw a b) := by
  refine ⟨fun o => ⟨?_, rfl⟩, fun o ho => ?_, fun o => ⟨refTable[24], by decide, rfl, rfl⟩⟩
  · simp [bindHandler, Instr.handler, Instr.decoded, asDouble, asReg_val, bind, Except.bind]
  · simp [Instr.decoded, DecodedInstr.valid, Instr.wellFormed]; omega

theorem OperandsBind.draw (a : Reg) : OperandsBind.Statement (.draw a) := by
  refine ⟨fun o => ⟨?_, rfl⟩, fun o ho => ?_, fun o => ⟨refTable[25], by decide, rfl, rfl⟩⟩
  · simp [bindHandler, Instr.handler, Instr.decoded, asSingle, asReg_val, bind, Except.bind]
  · simp [Instr.decoded, DecodedInstr.valid, Instr.wellFormed]; omega

theorem OperandsBind.dump : OperandsBind.Statement .dump := by
  refine ⟨fun o => ⟨?_, rfl⟩, fun o ho => ?_, fun o => ⟨refTable[26], by decide, rfl, rfl⟩⟩
  · simp [bindHandler, Instr.handler, Instr.decoded, asNoarg]
  · simp [Instr.decoded, DecodedInstr.valid, Instr.wellFormed]; omega

theorem OperandsBind.halt : OperandsBind.Statement .halt := by
  refine ⟨fun o => ⟨?_, rfl⟩, fun o ho => ?_, fun o => ⟨refTable[27], by decide, rfl, rfl⟩⟩
  · simp [bindHandler, Instr.handler, Instr.decoded, asNoarg]
  · simp [Instr.decoded, DecodedInstr.valid, Instr.wellFormed]; omega

end Sys2Proof.Laws
end

