-- ==== Sys2Proof/Tests/Slice0.lean ====
section
/-! SUPPORT. Tests: what the well-formedness checks refuse, the decoding of words written out from the spec's encodings, single steps
against the vectors of `95_test_vectors.md`, and, for every statement with hypotheses, values that meet them. -/

namespace Sys2Proof.Tests

open Sys2Proof.Machine

/-! ### Well-formedness (30 R87, 42 R150) -/

theorem test_wf_ldc_above : (Instr.ldc 1 524288).wellFormed = false := by decide
theorem test_wf_ldc_below : (Instr.ldc 1 (-524289)).wellFormed = false := by decide
theorem test_wf_jmp_above : (Instr.jmp 0 524288).wellFormed = false := by decide
theorem test_wf_jmp_below : (Instr.jmp 0 (-524289)).wellFormed = false := by decide
theorem test_wf_call_above : (Instr.call 0 524288).wellFormed = false := by decide
theorem test_wf_call_below : (Instr.call 0 (-524289)).wellFormed = false := by decide
theorem test_valid_triple : (DecodedInstr.triple 1024 0 0 0).valid = false ∧ (DecodedInstr.triple 3 32 0 0).valid = false
    ∧ (DecodedInstr.triple 3 0 32 0).valid = false ∧ (DecodedInstr.triple 3 0 0 32).valid = false := by decide
theorem test_valid_double : (DecodedInstr.double 1024 0 0).valid = false ∧ (DecodedInstr.double 13 32 0).valid = false
    ∧ (DecodedInstr.double 13 0 32).valid = false := by decide
theorem test_valid_single : (DecodedInstr.single 1024 0).valid = false ∧ (DecodedInstr.single 15 32).valid = false := by decide
theorem test_valid_noarg : (DecodedInstr.noarg 1024).valid = false := by decide
theorem test_valid_ldc : (DecodedInstr.ldc 64 0 0).valid = false ∧ (DecodedInstr.ldc 2 32 0).valid = false
    ∧ (DecodedInstr.ldc 2 0 524288).valid = false ∧ (DecodedInstr.ldc 2 0 (-524289)).valid = false := by decide
theorem test_valid_move : (DecodedInstr.move 64 0 0).valid = false ∧ (DecodedInstr.move 1 32 0).valid = false
    ∧ (DecodedInstr.move 1 0 32).valid = false := by decide
theorem test_valid_jump : (DecodedInstr.jump 64 0 0).valid = false ∧ (DecodedInstr.jump 3 32 0).valid = false
    ∧ (DecodedInstr.jump 3 0 524288).valid = false ∧ (DecodedInstr.jump 3 0 (-524289)).valid = false := by decide
/-- A layout that drops the reserved bit is not lawful. -/
theorem test_lawless_layout : ¬ HdrLayout.Lawful { refLayout with rsv := fun _ => false } :=
  fun h => absurd (h.rsv_build 0 false true 0) (by decide)

/-! ### Decoding of written-out words (95 part 2.4, part 3.1) -/

theorem test_decode_mov : decode 0b00000110000100111100000000000000#32 = .ok (.mov 17 30) := by decide
theorem test_decode_mov_reserved_bits_ignored : decode 0b00000111111111111101111111111111#32 = .ok (.mov 31 30) := by decide
theorem test_decode_ldc : decode 0b00001010000010000000000000000000#32 = .ok (.ldc 16 (-524288)) := by decide
theorem test_decode_ldc_greatest : decode 0b00001000111101111111111111111111#32 = .ok (.ldc 15 524287) := by decide
theorem test_decode_jmp : decode 0b00001100000111111111111111111101#32 = .ok (.jmp 1 (-3)) := by decide
theorem test_decode_jmp_reserved_condition : decode 0b00001110111100000000000000000000#32 = .ok (.jmp 31 0) := by decide
theorem test_decode_call : decode 0b00010010010100000000000000000111#32 = .ok (.call 21 7) := by decide
theorem test_decode_sqrt : decode 0b00000000000000000100111010000000#32 = .ok (.sqrt 3 20) := by decide
theorem test_decode_not : decode 0b00000010000000001000110010000000#32 = .ok (.not 19 4) := by decide
theorem test_decode_add : decode 0b00000000000000001100010001000011#32 = .ok (.add 1 2 3) := by decide
theorem test_decode_add_high_registers : decode 0b00000010000000001111111111111111#32 = .ok (.add 31 31 31) := by decide
theorem test_decode_sub : decode 0b00000000000000010000110000100010#32 = .ok (.sub 3 1 2) := by decide
theorem test_decode_mul : decode 0b00000000000000010100110000100010#32 = .ok (.mul 3 1 2) := by decide
theorem test_decode_div : decode 0b00000000000000011000100000000001#32 = .ok (.div 2 0 1) := by decide
theorem test_decode_mod : decode 0b00000000000000011100100000000001#32 = .ok (.mod 2 0 1) := by decide
theorem test_decode_shl : decode 0b00000000000000100000110000100010#32 = .ok (.shl 3 1 2) := by decide
theorem test_decode_shr : decode 0b00000000000000100100110000100010#32 = .ok (.shr 3 1 2) := by decide
theorem test_decode_or : decode 0b00000000000000101000110000100010#32 = .ok (.or 3 1 2) := by decide
theorem test_decode_xor : decode 0b00000000000000101100110000100010#32 = .ok (.xor 3 1 2) := by decide
theorem test_decode_and : decode 0b00000000000000110000001111100000#32 = .ok (.and 0 31 0) := by decide
theorem test_decode_cmp : decode 0b00000000000000110100000000111111#32 = .ok (.cmp 0 1) := by decide
theorem test_decode_ret : decode 0b00000000000000111000000000000000#32 = .ok (.ret) := by decide
theorem test_decode_pushr : decode 0b00000010000000111100000000000000#32 = .ok (.pushr 16) := by decide
theorem test_decode_popr : decode 0b00000000000001000001010000000000#32 = .ok (.popr 5) := by decide
theorem test_decode_ldm : decode 0b00000000000001000100010001000000#32 = .ok (.ldm 1 2) := by decide
theorem test_decode_stm : decode 0b00000000000001001000010001000000#32 = .ok (.stm 1 2) := by decide
theorem test_decode_input : decode 0b00000000000001001100000000000000#32 = .ok (.input 0) := by decide
theorem test_decode_print : decode 0b00000000000001010000100000000000#32 = .ok (.print 2) := by decide
theorem test_decode_scrhw : decode 0b00000010000001010111111111100000#32 = .ok (.scrhw 31 31) := by decide
theorem test_decode_draw : decode 0b00000010000001011011110000000000#32 = .ok (.draw 31) := by decide
theorem test_decode_dump : decode 0b00000000000001011100000000000000#32 = .ok (.dump) := by decide
theorem test_decode_halt : decode 0b00000011000001100011111111111111#32 = .ok (.halt) := by decide
theorem test_decode_zero_word : decode 0#32 = .error (.unknownOpcode 0 .directive) := by decide
theorem test_decode_above_halt : decode 0x00064000#32 = .error (.unknownOpcode 25 .directive) := by decide
theorem test_decode_unassigned_base : decode 0x14000000#32 = .error (.unknownOpcode 5 .base) := by decide
theorem test_encode_add : encode (.add 1 2 3) = .ok 0x0000C443#32 := by decide
theorem test_encode_ldc_refused : encode (.ldc 1 524288) = .error (.operandRange 524288 20) := by decide
theorem test_decode_bytes : decodeBytes [0x43, 0xC4, 0x00, 0x00, 0x05] = .ok (.add 1 2 3, [0x05]) := by decide
theorem test_table_word : decodeTableWord 32 0x0C1FFFFD = some (.jmp 1 (-3)) := by decide

/-! ### The primitives (95 parts 2.1 to 2.3) -/

theorem test_getBitfield_ends : getBitfield refLayout 0x00800000 0 1 = .ok 1 ∧ getBitfield refLayout 1 23 1 = .ok 1
    ∧ getBitfield refLayout 0 20 5 = .error (.decodeError 20 5) := by decide
theorem test_setBitfield : setBitfield refLayout 0xFFFFFFFF 8 8 0x5A = .ok 0xFFFF5AFF
    ∧ setBitfield refLayout 0 20 5 99 = .error (.decodeError 20 5)
    ∧ setBitfield refLayout 0 0 10 1024 = .error (.operandRange 1024 10) := by decide
theorem test_directive_bitfield : setDirectiveBitfield refLayout 0x00FFFFFF 0 14 0 = .ok 0x00FFC000
    ∧ getDirectiveBitfield refLayout 0x0000C443 9 5 = .ok 3 := by decide
theorem test_setRegister_modes : setRegister refLayout 0xFFFFFFFF 0 true 15 = .ok 0xFDFFFFFF
    ∧ setRegister refLayout 0x02000000 0 false 15 = .ok 0x02780000 := by decide
theorem test_encode_check_order : encodeWord refCodec (.triple 1024 0 0 0) = .error (.unknownOpcode 1024 .directive)
    ∧ encodeWord refCodec (.triple 13 0 0 0) = .error (.shapeMismatch 13 .triple .double) := by decide

/-! ### Single steps (95 part 3.3) -/

/-- A running machine with a buffer of `n` words, at index 1, with a screen of 2 by 3 cells. -/
def machine (n : Nat) : State := { State.reset with ip := 1, program := List.replicate n 0, screenH := 2, screenW := 3 }

/-- That machine with registers 1 and 2 holding `a` and `b`. -/
def machine2 (n : Nat) (a b : Word) : State := ((machine n).setReg 1 a).setReg 2 b

/-- One fact of the next state of an instruction. -/
def after {α : Type} (f : State → α) (i : Instr) (s : State) : Option α :=
  match exec i s with
  | .next t => some (f t)
  | .fault _ => none
  | .refused _ => none

/-- The status the engine faults with, if it does. -/
def faultOf (t : State) : Option Status :=
  match t.run with
  | .faulted f => some f.status
  | .halted => none
  | .running => none

theorem test_mov_to_high_register : after (fun t => t.getReg 17) (.mov 17 2) (machine2 4 7 9) = some 9 := by decide
theorem test_ldc_sign_extends : after (fun t => t.getReg 9) (.ldc 9 (-524288)) (machine2 4 0 0) = some (-524288) := by decide
theorem test_add_wraps : after (fun t => t.getReg 3) (.add 3 1 2) (machine2 4 0x7FFFFFFFFFFFFFFF 1) = some 0x8000000000000000 := by decide
theorem test_add_reads_before_writing : after (fun t => t.getReg 1) (.add 1 1 1) (machine2 4 21 0) = some 42 := by decide
theorem test_sub_left_minus_right : after (fun t => t.getReg 3) (.sub 3 1 2) (machine2 4 10 3) = some 7 := by decide
theorem test_sub_wraps : after (fun t => t.getReg 3) (.sub 3 1 2) (machine2 4 0x8000000000000000 1) = some 0x7FFFFFFFFFFFFFFF := by decide
theorem test_mul_signed : after (fun t => t.getReg 3) (.mul 3 1 2) (machine2 4 (-7) 6) = some (-42) := by decide
theorem test_mul_wraps :
    after (fun t => t.getReg 3) (.mul 3 1 2) (machine2 4 3037000500 3037000500) = some (-9223372036709301616) := by decide
theorem test_div_truncates : after (fun t => t.getReg 3) (.div 3 1 2) (machine2 4 (-7) 2) = some (-3) := by decide
theorem test_div_by_zero : after faultOf (.div 3 1 2) (machine2 4 5 0) = some (some .divisionByZero) := by decide
theorem test_mod_sign_of_dividend : after (fun t => t.getReg 3) (.mod 3 1 2) (machine2 4 (-7) 2) = some (-1) := by decide
theorem test_mod_by_zero : after faultOf (.mod 3 1 2) (machine2 4 5 0) = some (some .divisionByZero) := by decide
theorem test_shl_drops_high_bits : after (fun t => t.getReg 3) (.shl 3 1 2) (machine2 4 3 63) = some 0x8000000000000000 := by decide
theorem test_shl_by_64_goes_on : after (fun t => (t.run, t.freeCount)) (.shl 3 1 2) (machine2 4 1 64) = some (.running, 1) := by decide
theorem test_shr_is_logical : after (fun t => t.getReg 3) (.shr 3 1 2) (machine2 4 (-1) 1) = some 0x7FFFFFFFFFFFFFFF := by decide
theorem test_shr_by_minus_one_goes_on :
    after (fun t => (t.run, t.freeCount)) (.shr 3 1 2) (machine2 4 1 (-1)) = some (.running, 1) := by decide
theorem test_or : after (fun t => t.getReg 3) (.or 3 1 2) (machine2 4 10 3) = some 11 := by decide
theorem test_xor : after (fun t => t.getReg 3) (.xor 3 1 2) (machine2 4 10 3) = some 9 := by decide
theorem test_and : after (fun t => t.getReg 3) (.and 3 1 2) (machine2 4 10 3) = some 2 := by decide
theorem test_not : after (fun t => t.getReg 19) (.not 19 1) (machine2 4 5 0) = some (-6) := by decide
theorem test_sqrt_above_2_53 : after (fun t => t.getReg 3) (.sqrt 3 1) (machine2 4 9007199254740993 0) = some 94906265 := by decide
theorem test_sqrt_of_negative : after faultOf (.sqrt 3 1) (machine2 4 (-1) 0) = some (some .negativeSquareRootOperand) := by decide
theorem test_cmp_signed : after (fun t => t.flags) (.cmp 1 2) (machine2 4 (-1) 0) = some ⟨false, true, false⟩ := by decide
theorem test_cmp_equal :
    after (fun t => t.flags) (.cmp 1 2) { machine2 4 9 9 with flags := ⟨false, true, true⟩ } = some ⟨true, false, false⟩ := by decide
theorem test_jmp_untaken_target_unchecked : after (fun t => (t.ip, t.run)) (.jmp 1 100) (machine 1) = some (1, .running) := by decide
theorem test_jmp_to_the_end : after faultOf (.jmp 0 3) (machine2 4 0 0) = some (some .outOfBoundsAccess) := by decide
theorem test_jmp_to_the_end_when_accepted :
    after (fun t => (t.ip, t.run)) (.jmp 0 0) { machine 1 with targetEndOk := true } = some (1, .running) := by decide
theorem test_call_pushes_next_index : after (fun t => (t.callStack, t.ip)) (.call 5 2) (machine 4) = some ([1], 3) := by decide

/-- The machine with `n` return addresses on the call stack. -/
def machineCalls (n : Nat) : State := { machine 4 with callStack := List.replicate n 2 }

theorem test_call_full_stack_first : after faultOf (.call 0 50) (machineCalls 1024) = some (some .stackOverflow) := by
  have h : (machineCalls 1024).callRoom = .error (.stackOverflow .call) := if_pos (Nat.le_of_eq List.length_replicate.symm)
  simp only [after, exec, execCall, h]
  rfl

theorem test_ret_pops_one : after (fun t => (t.callStack, t.ip)) .ret { machine 4 with callStack := [3, 7] } = some ([7], 3) := by decide
theorem test_ret_to_the_end_keeps_the_stack :
    after (fun t => (t.callStack, faultOf t)) .ret { machine 4 with callStack := [4] } = some ([4], some .outOfBoundsAccess) := by decide
theorem test_pushr :
    after (fun t => t.valueStack) (.pushr 1) { machine2 4 (-5) 0 with valueStack := [2, 1] } = some [-5, 2, 1] := by decide
theorem test_popr :
    after (fun t => (t.getReg 5, t.valueStack)) (.popr 5) { machine 4 with valueStack := [3, 2] } = some (3, [2]) := by decide
theorem test_popr_empty : after faultOf (.popr 5) (machine2 4 0 0) = some (some .stackUnderflow) := by decide
theorem test_ldm_last_cell :
    after (fun t => t.getReg 2) (.ldm 1 2) { machine2 4 1048575 5 with ram := [(1048575, -4)] } = some (-4) := by decide
theorem test_ldm_negative_address : after faultOf (.ldm 1 2) (machine2 4 (-1) 5) = some (some .outOfBoundsAccess) := by decide
theorem test_stm : after (fun t => t.ram) (.stm 1 2) (machine2 4 100 77) = some [(100, 77)] := by decide
theorem test_stm_above_the_ram : after faultOf (.stm 1 2) (machine2 4 1048576 5) = some (some .outOfBoundsAccess) := by decide
theorem test_input :
    after (fun t => (t.getReg 0, t.inputs)) (.input 0) { machine 4 with inputs := [-12, 4] } = some (-12, [4]) := by decide
theorem test_print : after (fun t => t.outputs) (.print 2) (machine2 4 0 8) = some [.int 8] := by decide
theorem test_scrhw_height_then_width : after (fun t => (t.getReg 3, t.getReg 4)) (.scrhw 3 4) (machine 4) = some (2, 3) := by decide
theorem test_scrhw_one_register : after (fun t => t.getReg 3) (.scrhw 3 3) (machine 4) = some 3 := by decide
theorem test_draw : after (fun t => t.outputs) (.draw 1) { machine2 4 10 0 with ram := [(10, 1), (13, 5), (14, -1)] }
    = some [.cell true, .cell false, .newline, .cell false, .cell true, .newline, .cell true, .cell false, .newline] := by decide
theorem test_draw_past_the_end : after faultOf (.draw 1) (machine2 4 1048571 0) = some (some .outOfBoundsAccess) := by decide
theorem test_dump_keeps_the_machine :
    after (fun t => ((t.outputs.length, t.ip), t.run)) .dump (machine 4) = some ((1, 1), .running) := by decide
theorem test_halt : after (fun t => (t.run, t.ip)) .halt (machine 4) = some (.halted, 1) := by decide

/-- The next state of a step. -/
def stepped (s : State) : Option State :=
  match step s with
  | .next t => some t
  | .fault _ => none
  | .refused _ => none

theorem test_first_instruction : (stepped (State.reset.withFetchWord 32 0x0800002A)).map (fun t => (t.getReg 0, t.ip)) = some (42, 1) := by
  decide
theorem test_unassigned_word_faults : (stepped (State.reset.withFetchWord 32 0)).map (fun t => (t.run, t.ip))
    = some (.faulted (.unknownOpcode 0 .directive), 1) := by decide
theorem test_empty_buffer_halts : (stepped State.reset).map (fun t => (t.run, t.ip)) = some (.halted, 0) := by decide

/-! ### Text and files (44, 95 parts 3.1, 3.2) -/

theorem test_text_line : assemble refCodec [] [['j', 'm', 'p', '.', 'e', 'q', ' ', '$', '-', '3']] = .ok [0x0C1FFFFD#32]
    ∧ disassemble refCodec [] [0x0C1FFFFD#32] = ([['j', 'm', 'p', '.', 'e', 'q', ' ', '$', '-', '3']], none) := by decide
theorem test_forward_label : assemble refCodec [] [['j', 'm', 'p', ' ', '.', 'a'], ['h', 'a', 'l', 't'], ['.', 'a', ':'], ['r', 'e', 't']]
    = .ok [0x0C000001#32, 0x00060000#32, 0x00038000#32] := by decide
theorem test_label_reference_length : offsetToken (lookStrict [] 0) ('.' :: List.replicate 65 'a') = .error (.labelLength 65)
    ∧ offsetToken (lookStrict [] 0) ('.' :: List.replicate 64 'a') = .error (.undefinedLabel (List.replicate 64 'a'))
    ∧ offsetToken (lookStrict [] 0) ['.'] = .error (.labelLength 0) ∧ offsetToken (lookStrict [] 0) ['.', ':'] = .error (.badToken ['.', ':']) := by
  decide
theorem test_undefined_label : assemble refCodec [] [['j', 'm', 'p', ' ', '.', 'a']] = .error (1, .undefinedLabel ['a']) := by decide
theorem test_load_partial_word : loadWords [0, 0, 6, 0, 0] = .error (.prematureEOF 5) ∧ loadWords [0, 0, 6, 0] = .ok [0x00060000#32] := by
  decide

/-! ### Values that meet the hypotheses of the statements -/


theorem test_witness_GetBitfieldReadsTheField :
    refLayout.Lawful ∧ 24 < 24 + 1 ∧ 23 + 1 ≤ 24 ∧ 0 + 24 ≤ 24 :=
  ⟨refLayout_lawful, by decide⟩
theorem test_witness_SetBitfieldWritesOnlyTheField :
    refLayout.Lawful ∧ 24 < 20 + 5 ∧ (20 + 4 ≤ 24 ∧ 2 ^ 4 ≤ 16) ∧ (20 + 4 ≤ 24 ∧ 15 < 2 ^ 4) :=
  ⟨refLayout_lawful, by decide⟩
theorem test_witness_BitfieldLaws :
    refLayout.Lawful ∧ (0 + 10 ≤ 24 ∧ 1023 < 2 ^ 10 ∧ 10 + 14 ≤ 24 ∧ disjointRanges 0 10 10 14) ∧ 0 + (10 + 14) ≤ 24
      ∧ (4 + 5 ≤ 14 ∧ 31 < 2 ^ 5 ∧ 9 + 5 ≤ 14 ∧ disjointRanges 4 5 9 5) ∧ disjointRanges 0 10 3 0 :=
  ⟨refLayout_lawful, ⟨by decide, by decide, by decide, .inl (by decide)⟩, by decide,
    ⟨by decide, by decide, by decide, .inl (by decide)⟩, .inr (.inr (.inr rfl))⟩
theorem test_witness_DirectiveWriteSparesTheOpcode :
    refLayout.Lawful ∧ 14 < 10 + 5 ∧ (9 + 5 ≤ 14 ∧ 2 ^ 5 ≤ 32) ∧ (9 + 5 ≤ 14 ∧ 31 < 2 ^ 5) :=
  ⟨refLayout_lawful, by decide⟩
theorem test_witness_RegisterCodecLaws :
    refLayout.Lawful ∧ 31 < 32 ∧ (20 + 4 ≤ 24 ∧ 19 < 24 ∧ 19 < 20) ∧ (19 + 5 ≤ 24 ∧ 0 < 24 ∧ 0 < 19) :=
  ⟨refLayout_lawful, by decide⟩
theorem test_witness_LookupFindsTheCommand :
    refCodec.wf = true ∧ lookupOpcode refCodec 24 .directive = .ok 27
      ∧ ∀ c ∈ refCodec.cmdTable, ¬(c.opcode = 25 ∧ c.space = .directive) :=
  by decide
theorem test_witness_ShapeCodecRoundTrip :
    refLayout.Lawful ∧ (DecodedInstr.triple 1023 31 31 31).valid = true ∧ (DecodedInstr.double 0 0 31).valid = true
      ∧ (DecodedInstr.single 16 5).valid = true ∧ (DecodedInstr.noarg 24).valid = true ∧ (DecodedInstr.ldc 63 31 (-524288)).valid = true
      ∧ (DecodedInstr.move 1 31 31).valid = true ∧ (DecodedInstr.jump 3 31 524287).valid = true :=
  ⟨refLayout_lawful, by decide⟩
theorem test_witness_EncodersRefuseInvalidFields :
    (DecodedInstr.triple 3 32 0 0).valid = false ∧ (DecodedInstr.double 13 0 32).valid = false
    ∧ (DecodedInstr.single 15 32).valid = false ∧ (DecodedInstr.noarg 1024).valid = false ∧ (DecodedInstr.ldc 2 1 524288).valid = false
    ∧ (DecodedInstr.move 64 0 0).valid = false ∧ (DecodedInstr.jump 3 0 (-524289)).valid = false :=
  by decide
theorem test_witness_MultiplexersRoundTrip :
    refLayout.Lawful ∧ refCodec.wf = true
      ∧ ((DecodedInstr.triple 3 31 0 15).valid = true ∧ refCodec.cmdTable[6]? = some (refCommand .add 3 .triple))
      ∧ decodeWord refCodec 0x0000C443 = .ok ⟨6, .triple, .triple 3 1 2 3⟩ ∧ decodeWord refCodec 0x0100C443 = .ok ⟨6, .triple, .triple 3 1 2 3⟩ :=
  ⟨refLayout_lawful, by decide⟩
theorem test_witness_EncodeChecksInOrder :
    refCodec.wf = true ∧ (∀ c ∈ refCodec.cmdTable, ¬(c.opcode = 1024 ∧ c.space = .directive))
      ∧ (refCommand .cmp 13 .double ∈ refCodec.cmdTable ∧ (refCommand .cmp 13 .double).shape ≠ (DecodedInstr.triple 13 0 0 0).shape)
      ∧ (refCommand .add 3 .triple ∈ refCodec.cmdTable ∧ (DecodedInstr.triple 3 0 0 32).valid = false) :=
  by decide
theorem test_witness_DecodeIgnoresTheReservedBit :
    refCodec.layout.Lawful :=
  refLayout_lawful
theorem test_witness_DecodeAcceptsExactlyTheTable :
    decode 0x00060000 = .ok .halt ∧ decode 0x00064000 = .error (.unknownOpcode 25 .directive) :=
  by decide
theorem test_witness_InstructionDecodeEncodeAgree :
    (Instr.ldc 31 (-524288)).wellFormed = true ∧ (Instr.jmp 31 524287).wellFormed = true ∧ Instr.halt.wellFormed = true :=
  by decide

/-- The machine with the word of an instruction at index 1. -/
def machineAt (w : IWord) : State := { machine 4 with program := [0, w, 0, 0] }

theorem test_witness_StepRunsTheDecodedInstruction :
    ((machineAt 0x0000C443).run = .running ∧ (machineAt 0x0000C443).program[(machineAt 0x0000C443).ip]? = some 0x0000C443#32
      ∧ decode 0x0000C443 = .ok (.add 1 2 3))
    ∧ (machineAt 0).program[(machineAt 0).ip]? = some 0#32 ∧ decode 0 = .error (.unknownOpcode 0 .directive) :=
  by decide
theorem test_witness_RunEndsAtHaltFaultOrBufferEnd :
    (machine 1).run = .running ∧ (machine 1).ip = (machine 1).program.length ∧ { machine 1 with run := .halted }.run ≠ .running :=
  by decide
theorem test_witness_FaultingHandlerWritesNothing :
    (machine 4).run = .running ∧ ∃ t f, exec .ret (machine 4) = .next t ∧ t.run = .faulted f :=
  ⟨by decide, _, _, rfl, rfl⟩
theorem test_witness_ResetAndBootMeetTheInvariant :
    Memory.wf [(0, 1), (1048575, 2)] = true ∧ 0 < 1024 ∧ 1024 * 1024 ≤ 1048576 :=
  by decide
theorem test_witness_EveryStepKeepsTheInvariant :
    (machineAt 0x00048440).Inv ∧ ∃ t, step (machineAt 0x00048440) = .next t :=
  ⟨by decide, _, rfl⟩
theorem test_witness_OnlyDestinationRegistersChange :
    ∃ t, exec (.scrhw 3 4) (machine 4) = .next t ∧ (5 : Reg) ∉ destinations (.scrhw 3 4) :=
  ⟨_, rfl, by decide⟩
theorem test_witness_FlagsWrittenByCmpReadByJmpAndDump :
    (∃ t, exec (.jmp 0 1) (machine 4) = .next t) ∧ (∀ rd rn, Instr.jmp 0 1 ≠ .cmp rd rn) ∧ Instr.jmp 0 1 ≠ .dump
    ∧ (∀ c off, Instr.jmp 0 1 = .jmp c off → c = 0) ∧ ∃ t, exec (.cmp 1 2) (machine2 4 3 5) = .next t :=
  ⟨⟨_, rfl⟩, (fun _ _ h => nomatch h), (fun h => nomatch h), (fun _ _ h => by cases h; rfl), ⟨_, rfl⟩⟩
theorem test_witness_OnlyTheStoredCellChanges :
    (machine2 4 100 77).ram.wf = true ∧ (∃ t, exec (.stm 1 2) (machine2 4 100 77) = .next t)
    ∧ storedCell (.stm 1 2) (machine2 4 100 77) = some 100 :=
  ⟨by decide, ⟨_, rfl⟩, by decide⟩
theorem test_witness_ProgramIsNeitherWrittenNorReadAsData :
    ∃ t, exec (.jmp 0 2) (machine 4) = .next t ∧ [1#32, 2, 3, 4].length = (machine 4).program.length :=
  ⟨_, rfl, by decide⟩
theorem test_witness_StackPointerHostAndScreenFrame :
    (∃ t, exec (.add 3 1 2) (machine 4) = .next t) ∧ (∀ c off, Instr.add 3 1 2 ≠ .jmp c off) ∧ (∀ c off, Instr.add 3 1 2 ≠ .call c off)
    ∧ Instr.add 3 1 2 ≠ .ret ∧ (∀ rd, Instr.add 3 1 2 ≠ .pushr rd) ∧ (∀ rd, Instr.add 3 1 2 ≠ .popr rd) ∧ (∀ rd, Instr.add 3 1 2 ≠ .input rd)
    ∧ (∀ rd, Instr.add 3 1 2 ≠ .print rd) ∧ (∀ rd, Instr.add 3 1 2 ≠ .draw rd) ∧ Instr.add 3 1 2 ≠ .dump :=
  ⟨⟨_, rfl⟩, (fun _ _ h => nomatch h), (fun _ _ h => nomatch h), (fun h => nomatch h), (fun _ h => nomatch h), (fun _ h => nomatch h),
    (fun _ h => nomatch h), (fun _ h => nomatch h), (fun _ h => nomatch h), (fun h => nomatch h)⟩
theorem test_witness_LdcLoadsTheSignedConstant :
    (-524288 : Int) ≤ -524288 ∧ (524287 : Int) ≤ 524287 :=
  by decide
theorem test_witness_DivModTruncateOrFault :
    (machine2 4 5 0).getReg 2 = 0
    ∧ ((machine2 4 minWord 1).getReg 2 ≠ 0 ∧ ¬(((machine2 4 minWord 1).getReg 1).toInt = -(2 ^ 63) ∧ ((machine2 4 minWord 1).getReg 2).toInt = -1))
    ∧ ((machine2 4 5 (-1)).getReg 2 ≠ 0 ∧ ¬(((machine2 4 5 (-1)).getReg 1).toInt = -(2 ^ 63) ∧ ((machine2 4 5 (-1)).getReg 2).toInt = -1)) :=
  by decide
theorem test_witness_NotComplementsEveryBit :
    0 < 64 ∧ 63 < 64 :=
  by decide
theorem test_witness_OrXorAndActBitwise :
    0 < 64 ∧ 63 < 64 :=
  by decide
theorem test_witness_BootLeavesTheResetTable :
    ([] : List IWord) = [] :=
  by decide
theorem test_witness_ObjectBytesAreLittleEndianWords :
    0 < 4 ∧ 3 < 4 :=
  by decide
theorem test_witness_QuotientAndRemainderRecombine :
    (machine2 4 minWord 2).getReg 2 ≠ 0
    ∧ ¬(((machine2 4 minWord 2).getReg 1).toInt = -(2 ^ 63) ∧ ((machine2 4 minWord 2).getReg 2).toInt = -1)
    ∧ ((machine2 4 minWord 2).getReg 1).toInt ≤ 0 ∧ 0 ≤ ((machine2 4 7 (-2)).getReg 1).toInt :=
  by decide
theorem test_witness_ShiftsActOnTheUnsignedPattern :
    ((machine2 4 3 63).getReg 2).toNat < 64 ∧ ((machine2 4 3 0).getReg 2).toNat < 64 :=
  by decide
theorem test_witness_UnspecifiedResultsAreFree :
    (((machine2 4 minWord (-1)).getReg 1).toInt = -(2 ^ 63) ∧ ((machine2 4 minWord (-1)).getReg 2).toInt = -1)
    ∧ 64 ≤ ((machine2 4 3 64).getReg 2).toNat ∧ 64 ≤ ((machine2 4 3 (-1)).getReg 2).toNat :=
  by decide
theorem test_witness_SqrtIsTheExactFloor :
    0 ≤ ((machine2 4 0 0).getReg 1).toInt ∧ 0 ≤ ((machine2 4 0x7FFFFFFFFFFFFFFF 0).getReg 1).toInt :=
  by decide
theorem test_witness_SqrtOfNegativeFaults :
    ((machine2 4 (-1) 0).getReg 1).toInt < 0 ∧ ((machine2 4 minWord 0).getReg 1).toInt < 0 :=
  by decide
theorem test_witness_ConditionsReadTheComparison :
    ∃ t, exec (.cmp 1 2) (machine2 4 (-1) 0) = .next t :=
  ⟨_, rfl⟩
theorem test_witness_JmpTakenUntakenOrFaulted :
    6 < (7 : Fin 32).val ∧ (Cond.less.code = (6 : Fin 32).val ∧ condHolds .less (machine 4).flags = false)
    ∧ (Cond.always.code = (0 : Fin 32).val ∧ condHolds .always (machine 4).flags = true)
    ∧ inBounds (machine 4).targetEndOk (machine 4).program.length (((machine 4).ip : Int) + 2) = true ∧ inBounds (machine 4).targetEndOk (machine 4).program.length (((machine 4).ip : Int) + -1) = true
    ∧ inBounds (machine 4).targetEndOk (machine 4).program.length (((machine 4).ip : Int) + 3) = false ∧ inBounds (machine 4).targetEndOk (machine 4).program.length (((machine 4).ip : Int) + -2) = false :=
  by decide
theorem test_witness_CallPushesAndJumpsOrFaults :
    1024 ≤ (machineCalls 1024).callStack.length ∧ (machineCalls 1023).callStack.length < 1024
    ∧ inBounds (machineCalls 1023).targetEndOk (machineCalls 1023).program.length (((machineCalls 1023).ip : Int) + 3) = false
    ∧ inBounds (machineCalls 1023).targetEndOk (machineCalls 1023).program.length (((machineCalls 1023).ip : Int) + 2) = true :=
  ⟨Nat.le_of_eq List.length_replicate.symm, Nat.lt_of_le_of_lt (Nat.le_of_eq List.length_replicate) (by decide), by decide, by decide⟩
theorem test_witness_RetPopsOrFaults :
    (machine 4).callStack = [] ∧ { machine 4 with callStack := [4] }.callStack = 4 :: [] ∧ inBounds (machine 4).targetEndOk (machine 4).program.length (4 : Nat) = false
    ∧ { machine 4 with callStack := [3, 7] }.callStack = 3 :: [7] ∧ inBounds (machine 4).targetEndOk (machine 4).program.length (3 : Nat) = true :=
  by decide
theorem test_witness_RetResumesAfterTheCall :
    (machine 4).run = .running ∧ (∃ t, exec (.call 0 2) (machine 4) = .next t ∧ t.run = .running ∧
      { machine 4 with ip := 3, callStack := [1] }.callStack = t.callStack) ∧ (machine 4).ip < (machine 4).program.length
    ∧ { machine 4 with ip := 3, callStack := [1] }.program.length = (machine 4).program.length :=
  ⟨by decide, ⟨_, rfl, rfl, rfl⟩, by decide, by decide⟩
/-- For a `call` in the last place of the buffer: the two values of `TARGET_END_OK`. -/
theorem test_witness_RetResumesAfterTheCall_at_the_end :
    ∃ t, exec (.call 0 (-1)) (machine 1) = .next t ∧ t.run = .running ∧ (machine 1).ip = (machine 1).program.length
      ∧ { machine 1 with callStack := [1], targetEndOk := true }.callStack = t.callStack ∧ (machine 1).targetEndOk = false :=
  ⟨_, rfl, rfl, by decide, rfl, rfl⟩
theorem test_witness_PoprPopsOrFaults :
    (machine 4).valueStack = [] ∧ { machine 4 with valueStack := [3, 2] }.valueStack = 3 :: [2] :=
  by decide
theorem test_witness_AddressOutsideTheRamFaults :
    ¬(0 ≤ ((machine2 4 (-1) 5).getReg 1).toInt ∧ ((machine2 4 (-1) 5).getReg 1).toInt < 1048576)
    ∧ ¬(0 ≤ ((machine2 4 1048576 5).getReg 1).toInt ∧ ((machine2 4 1048576 5).getReg 1).toInt < 1048576) :=
  by decide
theorem test_witness_LdmLoadsTheCell :
    ((machine2 4 1048575 5).getReg 1).toInt = (1048575 : Nat) ∧ 1048575 < 1048576 :=
  by decide
theorem test_witness_StmStoresTheCell :
    (machine2 4 1048575 5).ram.wf = true ∧ ((machine2 4 1048575 5).getReg 1).toInt = (1048575 : Nat) ∧ 1048575 < 1048576 :=
  by decide
theorem test_witness_LoadSeesTheLatestStore :
    (machine2 4 7 7).run = .running ∧ (machine2 4 7 7).ram.wf = true ∧ ((machine2 4 7 7).getReg 1).toInt = (7 : Nat) ∧ 7 < 1048576
    ∧ ∃ t u, exec (.stm 1 2) (machine2 4 7 7) = .next t ∧ (t.getReg 2).toInt = (7 : Nat) ∧ exec (.ldm 2 3) t = .next u :=
  ⟨by decide, by decide, by decide, by decide, _, _, rfl, by decide, rfl⟩
theorem test_witness_InputTakesTheHostValue :
    { machine 4 with inputs := [-12, 4] }.inputs = -12 :: [4] ∧ (machine 4).inputs = [] :=
  by decide
theorem test_witness_ScrhwWritesHeightThenWidth :
    (3 : Reg) ≠ 4 ∧ (5 : Reg) ≠ 3 ∧ (5 : Reg) ≠ 4 :=
  by decide
theorem test_witness_DrawShowsTheRegionOrFaults :
    (0 ≤ ((machine2 4 1048570 0).getReg 1).toInt
      ∧ ((machine2 4 1048570 0).getReg 1).toInt + ((machine2 4 1048570 0).screenH * (machine2 4 1048570 0).screenW : Nat) ≤ 1048576)
    ∧ ¬(0 ≤ ((machine2 4 1048571 0).getReg 1).toInt
      ∧ ((machine2 4 1048571 0).getReg 1).toInt + ((machine2 4 1048571 0).screenH * (machine2 4 1048571 0).screenW : Nat) ≤ 1048576) :=
  by decide
theorem test_witness_PartialWordFailsToLoad :
    [0#8, 0, 6, 0, 0].length % 4 ≠ 0 ∧ [0#8, 0, 6, 0].length % 4 = 0 :=
  by decide
theorem test_witness_LabelOffsetReachesTheLabel :
    (machine 4).ip = 0 + 1 ∧ 3 < (machine 4).program.length ∧ 4 = (machine 4).program.length ∧ (machine 4).program.length < 5
    ∧ (machine 4).targetEndOk = false ∧ { machine 4 with targetEndOk := true }.targetEndOk = true :=
  by decide
theorem test_witness_TextRoundTripIsTheIdentity :
    (Instr.jmp 6 (-3)).wellFormed = true ∧ (∀ c off, Instr.jmp 6 (-3) = .jmp c off → c.val ≤ 6)
    ∧ ((Instr.add 30 0 9).wellFormed = true ∧ ∀ r : Reg, r = 30 ∨ r = 0 ∨ r = 9 → r ≠ 31) :=
  ⟨by decide, (fun c _ h => by cases h; decide), by decide, by decide⟩

end Sys2Proof.Tests
end

