-- ==== Sys2Proof/Proofs/ObjectBytes.lean ====
section
/-! PROOFS. The bytes of a binary object and the words the loader rebuilds from them (20 R50; obligation O57). -/

namespace Sys2Proof.Machine

/-! ### One word as four bytes -/

@[simp] theorem length_bytesOfWord (w : IWord) : (bytesOfWord w).length = 4 := rfl

/-- Byte `k` of a word is bits `8k + 7 .. 8k`, least significant byte first. -/
theorem getElem?_bytesOfWord (w : IWord) {k : Nat} (hk : k < 4) : (bytesOfWord w)[k]? = some (w.extractLsb' (8 * k) 8) := by
  match k, hk with
  | 0, _ => rfl
  | 1, _ => rfl
  | 2, _ => rfl
  | 3, _ => rfl

/-- Reassembling a word's own bytes gives the word: the four slices are adjacent, so each append widens one slice. -/
theorem wordOfBytes_slices (w : IWord) :
    wordOfBytes (w.extractLsb' 0 8) (w.extractLsb' 8 8) (w.extractLsb' 16 8) (w.extractLsb' 24 8) = w := by
  have upper : w.extractLsb' 24 8 ++ w.extractLsb' 16 8 = w.extractLsb' 16 16 :=
    BitVec.extractLsb'_append_extractLsb'_eq_extractLsb' rfl
  have middle : w.extractLsb' 16 16 ++ w.extractLsb' 8 8 = w.extractLsb' 8 24 :=
    BitVec.extractLsb'_append_extractLsb'_eq_extractLsb' rfl
  have whole : w.extractLsb' 8 24 ++ w.extractLsb' 0 8 = w.extractLsb' 0 32 :=
    BitVec.extractLsb'_append_extractLsb'_eq_extractLsb' rfl
  calc wordOfBytes (w.extractLsb' 0 8) (w.extractLsb' 8 8) (w.extractLsb' 16 8) (w.extractLsb' 24 8)
      = w.extractLsb' 24 8 ++ w.extractLsb' 16 8 ++ w.extractLsb' 8 8 ++ w.extractLsb' 0 8 := rfl
    _ = w.extractLsb' 0 32 := by rw [upper, middle, whole]
    _ = w := BitVec.extractLsb'_eq_self

/-! ### A program as its object -/

@[simp] theorem bytesOfWords_nil : bytesOfWords [] = [] := rfl

@[simp] theorem bytesOfWords_cons (w : IWord) (ws : List IWord) : bytesOfWords (w :: ws) = bytesOfWord w ++ bytesOfWords ws := rfl

@[simp] theorem length_bytesOfWords (ws : List IWord) : (bytesOfWords ws).length = 4 * ws.length := by
  induction ws with
  | nil => rfl
  | cons w ws ih => rw [bytesOfWords_cons, List.length_append, length_bytesOfWord, ih, List.length_cons]; omega

/-- Byte `4i + k` of an object is byte `k` of word `i`, and there is none where there is no word (20 R50). -/
theorem getElem?_bytesOfWords (ws : List IWord) (i : Nat) {k : Nat} (hk : k < 4) :
    (bytesOfWords ws)[4 * i + k]? = (ws[i]?).map (fun w => w.extractLsb' (8 * k) 8) := by
  induction ws generalizing i with
  | nil => rfl
  | cons w ws ih =>
    cases i with
    | zero =>
      have inHead : 4 * 0 + k < (bytesOfWord w).length := by rw [length_bytesOfWord]; omega
      rw [bytesOfWords_cons, List.getElem?_append_left inHead, Nat.mul_zero, Nat.zero_add, getElem?_bytesOfWord w hk]
      rfl
    | succ j =>
      have pastHead : (bytesOfWord w).length ≤ 4 * (j + 1) + k := by rw [length_bytesOfWord]; omega
      have tailIndex : 4 * (j + 1) + k - (bytesOfWord w).length = 4 * j + k := by rw [length_bytesOfWord]; omega
      rw [bytesOfWords_cons, List.getElem?_append_right pastHead, tailIndex, ih j, List.getElem?_cons_succ]

/-- The loader takes the four bytes of the first word off and rebuilds that word. -/
theorem wordsOfBytes_bytesOfWord_append (w : IWord) (rest : List Byte) :
    wordsOfBytes (bytesOfWord w ++ rest) = w :: wordsOfBytes rest := by
  simp only [bytesOfWord, List.cons_append, List.nil_append, wordsOfBytes, wordOfBytes_slices]

@[simp] theorem wordsOfBytes_bytesOfWords (ws : List IWord) : wordsOfBytes (bytesOfWords ws) = ws := by
  induction ws with
  | nil => rfl
  | cons w ws ih => rw [bytesOfWords_cons, wordsOfBytes_bytesOfWord_append, ih]

/-- A file of whole words loads (20 R54). -/
theorem loadWords_of_whole {bytes : List Byte} (whole : bytes.length % 4 = 0) : loadWords bytes = .ok (wordsOfBytes bytes) :=
  if_pos whole

/-- Loading the object of a program gives the program back. -/
theorem loadWords_bytesOfWords (ws : List IWord) : loadWords (bytesOfWords ws) = .ok ws := by
  have whole : (bytesOfWords ws).length % 4 = 0 := by rw [length_bytesOfWords, Nat.mul_mod_right]
  rw [loadWords_of_whole whole, wordsOfBytes_bytesOfWords]

/-- Settles O57: each byte by induction on the program, the load by the round trip of one word. -/
theorem objectBytesAreLittleEndianWords : Obligations.ObjectBytesAreLittleEndianWords :=
  fun ws => ⟨fun i _ hk => getElem?_bytesOfWords ws i hk, loadWords_bytesOfWords ws⟩

end Sys2Proof.Machine
end

