-- ==== Sys2Proof/Proofs/Bitfields.lean ====
section
/-! PROOFS. The plain and the directive bitfield primitives: what they answer outside the window, the six laws, and the opcode that the
directive write spares (40 R112 to R118; obligations O1, O3, O4). -/

namespace Sys2Proof

/-! ### Fields of no bits (40 R113) -/

/-- A field of no bits holds 0, the one value below `2 ^ 0`. -/
@[simp] theorem fld_len_zero (a : Arg) (pos : Nat) : fld a pos 0 = 0 := Nat.mod_one _

/-- Writing a field of no bits changes nothing: it writes back the 0 the field holds. -/
@[simp] theorem ins_len_zero (a : Arg) (pos : Nat) (h : pos ≤ 24) : ins a pos 0 0 = a := by
  have writeBack := ins_fld a pos 0 h
  rwa [fld_len_zero] at writeBack

/-- A write of a field leaves every disjoint field alone, the fields of no bits included (40 R118, law 3). -/
theorem fld_ins_of_disjointRanges (a : Arg) (pos len v pos' len' : Nat) (h : pos + len ≤ 24) (h' : pos' + len' ≤ 24)
    (hv : v < 2 ^ len) (hd : disjointRanges pos len pos' len') : fld (ins a pos len v) pos' len' = fld a pos' len' := by
  obtain before | after | rfl | rfl := hd
  · exact fld_ins_disjoint a pos len v pos' len' h h' hv (.inl before)
  · exact fld_ins_disjoint a pos len v pos' len' h h' hv (.inr after)
  · obtain rfl : v = 0 := Nat.lt_one_iff.1 hv
    rw [ins_len_zero a pos h]
  · rw [fld_len_zero, fld_len_zero]

/-! ### The primitives outside the window, and on a built word -/

section
variable {L : HdrLayout}

/-- `get_bitfield` outside the window (40 R111). -/
theorem getBitfield_outside (w : IWord) (pos len : Nat) (h : 24 < pos + len) :
    getBitfield L w pos len = .error (.decodeError pos len) := if_pos h

/-- `set_bitfield` outside the window, whatever the value (40 R111, D11). -/
theorem setBitfield_outside (w : IWord) (pos len v : Nat) (h : 24 < pos + len) :
    setBitfield L w pos len v = .error (.decodeError pos len) := if_pos h

/-- `set_bitfield` inside the window with a value too wide for the field (40 R116). -/
theorem setBitfield_tooWide (w : IWord) (pos len v : Nat) (h : pos + len ≤ 24) (hv : 2 ^ len ≤ v) :
    setBitfield L w pos len v = .error (.operandRange v len) := by
  rw [setBitfield, if_neg (Nat.not_lt.2 h), if_pos hv]

/-- `get_bitfield` of a built word reads the argument it was built from; the header does not matter (40 R112). -/
theorem getBitfield_build (hL : L.Lawful) (o : BitVec 6) (e r : Bool) (a : Arg) (pos len : Nat) (h : pos + len ≤ 24) :
    getBitfield L (L.build o e r a) pos len = .ok (fld a pos len) := by
  rw [getBitfield_ok _ pos len h, hL.arg_build]

/-! ### The six laws (40 R118) -/

/-- Writing back what a field holds gives the same word (40 R118, law 2). -/
theorem setBitfield_fld (hL : L.Lawful) (w : IWord) (pos len : Nat) (h : pos + len ≤ 24) :
    setBitfield L w pos len (fld (L.arg w) pos len) = .ok w := by
  rw [setBitfield_ok w pos len _ h (fld_lt _ pos len), ins_fld _ pos len h, hL.build_views]

/-- Laws 1 to 5: the plain primitives have the laws with the window 24. -/
theorem fieldLaws_plain (hL : L.Lawful) : FieldLaws L (getBitfield L) (setBitfield L) 24 := by
  intro w
  refine ⟨fun pos len v h hv => ⟨_, setBitfield_ok w pos len v h hv, ?_, fun pos' len' h' hd => ?_,
      hL.opc_build .., hL.ext_build .., hL.rsv_build ..⟩,
    fun pos len h => ⟨_, getBitfield_ok w pos len h, setBitfield_fld hL w pos len h⟩,
    fun pos a b h => ⟨_, _, getBitfield_ok w pos a (by omega), getBitfield_ok w (pos + a) b (by omega), ?_⟩⟩
  · rw [getBitfield_build hL _ _ _ _ pos len h, fld_ins_same _ pos len v h hv]
  · rw [getBitfield_build hL _ _ _ _ pos' len' h', fld_ins_of_disjointRanges _ pos len v pos' len' h h' hv hd,
      getBitfield_ok w pos' len' h']
  · rw [getBitfield_ok w pos (a + b) h, fld_split _ pos a b h]

/-- Moving both ranges by the same distance keeps them disjoint. -/
theorem disjointRanges_add {pos len pos' len' : Nat} (k : Nat) (h : disjointRanges pos len pos' len') :
    disjointRanges (pos + k) len (pos' + k) len' := by
  unfold disjointRanges at *
  omega

/-- Primitives that ask at positions `k` further keep the laws, with a window `k` smaller. -/
theorem fieldLaws_offset {get : IWord → Nat → Nat → Except Failure Nat} {set : IWord → Nat → Nat → Nat → Except Failure IWord}
    {window : Nat} (k : Nat) (laws : FieldLaws L get set (window + k)) :
    FieldLaws L (fun w pos => get w (pos + k)) (fun w pos => set w (pos + k)) window := by
  intro w
  obtain ⟨write, writeBack, split⟩ := laws w
  refine ⟨fun pos len v h hv => ?_, fun pos len h => writeBack (pos + k) len (by omega), fun pos a b h => ?_⟩
  · obtain ⟨w', hset, hget, frame, header⟩ := write (pos + k) len v (by omega) hv
    exact ⟨w', hset, hget, fun pos' len' h' hd => frame (pos' + k) len' (by omega) (disjointRanges_add k hd), header⟩
  · have splitAt := split (pos + k) a b (by omega)
    rwa [Nat.add_right_comm pos k a] at splitAt

/-- Law 6: the directive primitives have the same laws with the window 14. -/
theorem fieldLaws_directive (hL : L.Lawful) : FieldLaws L (getDirectiveBitfield L) (setDirectiveBitfield L) 14 :=
  fieldLaws_offset 10 (fieldLaws_plain hL)

/-! ### The directive write and the opcodes (40 R117) -/

/-- A directive write that succeeds leaves the directive opcode, plain positions 0 to 9, and the base opcode as they were: the field
written begins at plain position 10. -/
theorem setDirectiveBitfield_spares_opcodes (hL : L.Lawful) (w : IWord) (pos len v : Nat) (h : pos + len ≤ 14) (hv : v < 2 ^ len) :
    ∃ w', setDirectiveBitfield L w pos len v = .ok w'
      ∧ getDirectiveOpcode L w' = getDirectiveOpcode L w ∧ L.opc w' = L.opc w := by
  obtain ⟨write, -, -⟩ := fieldLaws_plain hL w
  obtain ⟨w', hset, -, frame, hopc, -, -⟩ := write (pos + 10) len v (by omega) hv
  have opcodeBefore : disjointRanges (pos + 10) len 0 10 := .inr (.inl (by omega))
  exact ⟨w', hset, frame 0 10 (by omega) opcodeBefore, hopc⟩

end

/-! ### The obligations -/

/-- Settles O1: the result is `fld` of the argument, known bit by bit, and a lawful layout gives the argument back. -/
theorem getBitfieldReadsTheField : Obligations.GetBitfieldReadsTheField := by
  intro L w pos len
  refine ⟨fun outside => ⟨_, getBitfield_outside w pos len outside, rfl⟩,
    fun inside => ⟨_, getBitfield_ok w pos len inside, fld_lt _ pos len, fun i hi => ?_,
      fun hL o e r => getBitfield_build hL o e r _ pos len inside⟩⟩
  rw [testBit_fld, decide_eq_true hi, Bool.true_and]

/-- Settles O3: the plain laws field by field, the directive laws by moving the plain ones 10 positions. -/
theorem bitfieldLaws : Obligations.BitfieldLaws :=
  fun _ hL => ⟨fieldLaws_plain hL, fieldLaws_directive hL⟩

/-- Settles O4: the directive write is the plain write at `pos + 10`, whose failures come in that order and whose frame holds the
opcodes. -/
theorem directiveWriteSparesTheOpcode : Obligations.DirectiveWriteSparesTheOpcode := by
  intro L w pos len value hL
  exact ⟨rfl,
    fun outside => ⟨_, setBitfield_outside w (pos + 10) len value (by omega), rfl⟩,
    fun inside tooWide => ⟨_, setBitfield_tooWide w (pos + 10) len value (by omega) tooWide, rfl⟩,
    fun inside fits => setDirectiveBitfield_spares_opcodes hL w pos len value inside fits⟩

end Sys2Proof
end

/-! PROOFS. The status of every register, opcode and immediate write inside its window, and of the encoder of every shape: an encoder
reports `ok` or `OperandRangeError` as the decoded instruction is valid or not (42 R162 to R168, R171; obligation O9). -/

namespace Sys2Proof

/-! ### The status of an operation that checks a range (60 R350) -/

/-- No failure is reported as `ok`. -/
theorem Failure.status_ne_ok (f : Failure) : f.status ≠ .ok := by
  cases f <;> exact Status.noConfusion

/-- An operation that reports a failure status has failed with it. -/
theorem error_of_statusOf {α : Type} {r : Except Failure α} {s : Status} (h : statusOf r = s) (failed : s ≠ .ok) :
    ∃ f, r = .error f ∧ f.status = s := by
  cases r with
  | ok _ => exact absurd h.symm failed
  | error f => exact ⟨f, rfl, h⟩

/-- The status of an operation whose one check is the range of a value. -/
def rangeStatus (inRange : Bool) : Status := if inRange then .ok else .operandRangeError

@[simp] theorem rangeStatus_true : rangeStatus true = .ok := rfl
@[simp] theorem rangeStatus_false : rangeStatus false = .operandRangeError := rfl

/-- Two range checks in a row are the check of both: whichever fails first, the status is the same. -/
theorem statusOf_bind_rangeStatus {α β : Type} {r : Except Failure α} {k : α → Except Failure β} {p q : Bool}
    (first : statusOf r = rangeStatus p) (next : ∀ a, statusOf (k a) = rangeStatus q) :
    statusOf (r >>= k) = rangeStatus (p && q) := by
  cases r with
  | ok a =>
    obtain rfl : p = true := by
      cases p with
      | true => rfl
      | false => exact Status.noConfusion first
    exact next a
  | error f =>
    obtain rfl : p = false := by
      cases p with
      | true => exact absurd first f.status_ne_ok
      | false => rfl
    exact first

/-! ### The write primitives inside their windows (40 R116, 41 R133, 42 R152, R161) -/

section
variable {L : HdrLayout}

theorem statusOf_setBitfield (w : IWord) (pos len v : Nat) (window : pos + len ≤ 24) :
    statusOf (setBitfield L w pos len v) = rangeStatus (decide (v < 2 ^ len)) := by
  by_cases fits : v < 2 ^ len
  · rw [setBitfield_ok w pos len v window fits, decide_eq_true fits]; rfl
  · rw [setBitfield_tooWide w pos len v window (Nat.not_lt.1 fits), decide_eq_false fits]; rfl

/-- A register write checks the whole number in both modes; the bitfield write under it never fails, as the low 4 bits fit a nibble and
a register number fits 5 bits. -/
theorem statusOf_setRegister (w : IWord) (pos : Nat) (useHeadBit : Bool) (n : Nat)
    (window : pos + (if useHeadBit then 4 else 5) ≤ 24) :
    statusOf (setRegister L w pos useHeadBit n) = rangeStatus (decide (n < 32)) := by
  rw [setRegister, if_neg (Nat.not_lt.2 window)]
  by_cases fits : n < 32
  · rw [if_neg (by omega)]
    cases useHeadBit with
    | true =>
      have nibble : n % 16 < 2 ^ 4 := Nat.mod_lt n (by decide)
      rw [if_pos rfl, statusOf_setBitfield _ pos 4 _ window, decide_eq_true nibble, decide_eq_true fits]
    | false => exact statusOf_setBitfield w pos 5 n window
  · rw [if_pos (by omega), decide_eq_false fits]; rfl

theorem statusOf_setDirectiveRegister (w : IWord) (pos : Nat) (useHeadBit : Bool) (n : Nat)
    (window : pos + 10 + (if useHeadBit then 4 else 5) ≤ 24) :
    statusOf (setDirectiveRegister L w pos useHeadBit n) = rangeStatus (decide (n < 32)) :=
  statusOf_setRegister w (pos + 10) useHeadBit n window

theorem statusOf_setBaseOpcode (w : IWord) (o : Nat) : statusOf (setBaseOpcode L w o) = rangeStatus (decide (o < 64)) := by
  by_cases fits : o < 64
  · rw [setBaseOpcode, if_neg (by omega), decide_eq_true fits]; rfl
  · rw [setBaseOpcode, if_pos (by omega), decide_eq_false fits]; rfl

theorem statusOf_setDirectiveOpcode (w : IWord) (q : Nat) :
    statusOf (setDirectiveOpcode L w q) = rangeStatus (decide (q < 1024)) := by
  by_cases fits : q < 1024
  · rw [setDirectiveOpcode, if_neg (by omega)]
    exact statusOf_setBitfield w 0 10 q (by decide)
  · rw [setDirectiveOpcode, if_pos (by omega), decide_eq_false fits]; rfl

/-- The 20-bit two's complement pattern always fits its field, so the range of the number is the one check. -/
theorem statusOf_setSimm20 (w : IWord) (pos : Nat) (s : Int) (window : pos + 20 ≤ 24) :
    statusOf (setSimm20 L w pos s) = rangeStatus (fitsSimm20 s) := by
  rw [fitsSimm20, ← Bool.decide_and]
  by_cases fits : -524288 ≤ s ∧ s ≤ 524287
  · rw [setSimm20_ok w pos s window fits.1 fits.2, decide_eq_true fits]; rfl
  · rw [setSimm20, if_pos (by omega), decide_eq_false fits]; rfl

end

/-! ### The encoders (42 R153, R162 to R168, R171) -/

theorem statusOf_startDirective (C : Codec) (o : Nat) : statusOf (startDirective C o) = rangeStatus (decide (o < 1024)) :=
  statusOf_setDirectiveOpcode _ o

theorem statusOf_startBase (C : Codec) (o : Nat) : statusOf (startBase C o) = rangeStatus (decide (o < 64)) :=
  statusOf_setBaseOpcode _ o

/-- An encoder answers a word exactly for a valid decoded instruction, and reports `OperandRangeError` for every other (42 R169, R171):
shape by shape, its writes are one range check per field. No law of the header layout is needed. -/
theorem statusOf_encodeShape (C : Codec) (d : DecodedInstr) : statusOf (encodeShape C d) = rangeStatus d.valid := by
  cases d with
  | triple o rd rl rr =>
    rw [DecodedInstr.valid, Bool.and_assoc, Bool.and_assoc]
    exact statusOf_bind_rangeStatus (statusOf_startDirective C o) fun w =>
      statusOf_bind_rangeStatus (statusOf_setDirectiveRegister w 0 true rd (by decide)) fun w =>
      statusOf_bind_rangeStatus (statusOf_setDirectiveRegister w 4 false rl (by decide)) fun w =>
      statusOf_setDirectiveRegister w 9 false rr (by decide)
  | double o rd rn =>
    rw [DecodedInstr.valid, Bool.and_assoc]
    exact statusOf_bind_rangeStatus (statusOf_startDirective C o) fun w =>
      statusOf_bind_rangeStatus (statusOf_setDirectiveRegister w 0 true rd (by decide)) fun w =>
      statusOf_setDirectiveRegister w 4 false rn (by decide)
  | single o rd =>
    exact statusOf_bind_rangeStatus (statusOf_startDirective C o) fun w =>
      statusOf_setDirectiveRegister w 0 true rd (by decide)
  | noarg o => exact statusOf_startDirective C o
  | ldc o rd imm =>
    rw [DecodedInstr.valid, Bool.and_assoc]
    exact statusOf_bind_rangeStatus (statusOf_startBase C o) fun w =>
      statusOf_bind_rangeStatus (statusOf_setRegister w 0 true rd (by decide)) fun w =>
      statusOf_setSimm20 w 4 imm (by decide)
  | move o rd rn =>
    rw [DecodedInstr.valid, Bool.and_assoc]
    exact statusOf_bind_rangeStatus (statusOf_startBase C o) fun w =>
      statusOf_bind_rangeStatus (statusOf_setRegister w 0 true rd (by decide)) fun w =>
      -- the reserved bits are written 0, a check that always passes
      statusOf_bind_rangeStatus (p := true) (statusOf_setBitfield w 4 2 0 (by decide)) fun w =>
      statusOf_setRegister w 6 false rn (by decide)
  | jump o cond off =>
    rw [DecodedInstr.valid, Bool.and_assoc]
    exact statusOf_bind_rangeStatus (statusOf_startBase C o) fun w =>
      statusOf_bind_rangeStatus (statusOf_setRegister w 0 true cond (by decide)) fun w =>
      statusOf_setSimm20 w 4 off (by decide)

/-! ### The obligation -/

/-- Settles O9: the status of an encoder is that of the validity of what it is given. -/
theorem encodersRefuseInvalidFields : Obligations.EncodersRefuseInvalidFields := by
  intro C d invalid
  have status := statusOf_encodeShape C d
  rw [invalid] at status
  exact error_of_statusOf status Status.noConfusion

end Sys2Proof

/-! PROOFS. The lookup arrays and `LOOKUP_OPCODE`: what an array's entry holds, the lookup of the one command with a key, and the lookup
of a key no command has (43 R191, R193, R194; obligation O6). -/

namespace Sys2Proof

/-! ### The size of a lookup array (43 R193) -/

/-- One turn of the scan behind `lutSize`. -/
def lutGrow (sp : Space) (n : Nat) (c : Command) : Nat := if c.space = sp then max n (c.opcode + 1) else n

theorem lutSize_eq_foldl (table : List Command) (sp : Space) : lutSize table sp = table.foldl (lutGrow sp) 0 := rfl

theorem le_lutGrow (sp : Space) (n : Nat) (c : Command) : n ≤ lutGrow sp n c := by
  unfold lutGrow
  split <;> omega

theorem opcode_lt_lutGrow {c : Command} {sp : Space} (space : c.space = sp) (n : Nat) : c.opcode < lutGrow sp n c := by
  rw [lutGrow, if_pos space]
  omega

/-- An opcode below the size so far stays below it, and that of a command still to be scanned comes below it. -/
theorem lt_foldl_lutGrow {o : Nat} {sp : Space} (table : List Command) (n : Nat)
    (below : o < n ∨ ∃ c ∈ table, c.opcode = o ∧ c.space = sp) : o < table.foldl (lutGrow sp) n := by
  induction table generalizing n with
  | nil =>
    obtain done | ⟨c, mem, -⟩ := below
    · exact done
    · cases mem
  | cons head tail ih =>
    refine ih _ ?_
    obtain done | ⟨c, mem, opcode, space⟩ := below
    · exact .inl (Nat.lt_of_lt_of_le done (le_lutGrow sp n head))
    obtain rfl | later := List.mem_cons.1 mem
    · exact .inl (opcode ▸ opcode_lt_lutGrow space n)
    · exact .inr ⟨c, later, opcode, space⟩

theorem lt_lutSize {table : List Command} {c : Command} (mem : c ∈ table) : c.opcode < lutSize table c.space :=
  lt_foldl_lutGrow table 0 (.inr ⟨c, mem, rfl, rfl⟩)

/-! ### Filling a lookup array (43 R193) -/

/-- One turn of the loop that fills a space's array: the write of a command's index at its opcode. -/
def lutWrite (sp : Space) (acc : List (Option Nat)) (ci : Command × Nat) : List (Option Nat) :=
  if ci.1.space = sp then acc.set ci.1.opcode (some ci.2) else acc

theorem lut_eq_foldl (table : List Command) (sp : Space) :
    lut table sp = table.zipIdx.foldl (lutWrite sp) (List.replicate (lutSize table sp) none) := rfl

@[simp] theorem length_lutWrite (sp : Space) (acc : List (Option Nat)) (ci : Command × Nat) :
    (lutWrite sp acc ci).length = acc.length := by
  unfold lutWrite
  split
  · exact List.length_set
  · rfl

theorem getElem?_lutWrite_self {acc : List (Option Nat)} {c : Command} (inside : c.opcode < acc.length) (i : Nat) :
    (lutWrite c.space acc (c, i))[c.opcode]? = some (some i) := by
  rw [lutWrite, if_pos rfl, List.getElem?_set_self inside]

theorem getElem?_lutWrite_other {o : Nat} {sp : Space} (acc : List (Option Nat)) {ci : Command × Nat}
    (other : ¬(ci.1.opcode = o ∧ ci.1.space = sp)) : (lutWrite sp acc ci)[o]? = acc[o]? := by
  unfold lutWrite
  split
  next space => exact List.getElem?_set_ne fun opcode => other ⟨opcode, space⟩
  next => rfl

/-- Commands with other keys leave an entry as it was. -/
theorem getElem?_foldl_lutWrite_of_no_key {o : Nat} {sp : Space} (es : List (Command × Nat)) (acc : List (Option Nat))
    (others : ∀ ci ∈ es, ¬(ci.1.opcode = o ∧ ci.1.space = sp)) : (es.foldl (lutWrite sp) acc)[o]? = acc[o]? := by
  induction es generalizing acc with
  | nil => rfl
  | cons head tail ih =>
    obtain ⟨headOther, tailOthers⟩ := List.forall_mem_cons.1 others
    exact (ih _ tailOthers).trans (getElem?_lutWrite_other acc headOther)

/-- When every command with the key has the index `i`, the entry at the key ends as `i`, provided that it holds `i` already or that a
command with the key is still to be written inside the array. -/
theorem getElem?_foldl_lutWrite_of_unique {o i : Nat} {sp : Space} (es : List (Command × Nat)) (acc : List (Option Nat))
    (unique : ∀ ci ∈ es, ci.1.opcode = o ∧ ci.1.space = sp → ci.2 = i)
    (entry : acc[o]? = some (some i) ∨ o < acc.length ∧ ∃ ci ∈ es, ci.1.opcode = o ∧ ci.1.space = sp) :
    (es.foldl (lutWrite sp) acc)[o]? = some (some i) := by
  induction es generalizing acc with
  | nil =>
    obtain written | ⟨-, ci, mem, -⟩ := entry
    · exact written
    · cases mem
  | cons head tail ih =>
    obtain ⟨headIndex, tailUnique⟩ := List.forall_mem_cons.1 unique
    refine ih _ tailUnique ?_
    by_cases key : head.1.opcode = o ∧ head.1.space = sp
    · -- the head writes the entry, and its index is `i`
      have inside : o < acc.length := by
        obtain written | ⟨inside, -⟩ := entry
        · exact (List.getElem?_eq_some_iff.1 written).1
        · exact inside
      obtain rfl := headIndex key
      obtain ⟨rfl, rfl⟩ := key
      exact .inl (getElem?_lutWrite_self inside head.2)
    · -- the head writes another entry, so the command with the key is in the tail
      rw [getElem?_lutWrite_other acc key, length_lutWrite]
      refine entry.imp_right fun ⟨inside, ci, mem, ciKey⟩ => ⟨inside, ci, ?_, ciKey⟩
      obtain rfl | later := List.mem_cons.1 mem
      · exact absurd ciKey key
      · exact later

/-! ### The entries of the lookup arrays (43 R191, R193) -/

/-- Invariant 2 of a well-formed table: a key has one index. -/
theorem Codec.index_unique {C : Codec} (wf : C.wf = true) {i j : Nat} {c d : Command} (atI : C.cmdTable[i]? = some c)
    (atJ : C.cmdTable[j]? = some d) (opcode : d.opcode = c.opcode) (space : d.space = c.space) : j = i := by
  simp only [Codec.wf, Bool.and_eq_true, decide_eq_true_eq] at wf
  obtain ⟨⟨-, keysNodup⟩, -⟩ := wf
  obtain ⟨inside, -⟩ := List.getElem?_eq_some_iff.1 atJ
  refine (List.getElem?_inj (by rwa [List.length_map]) keysNodup).1 ?_
  rw [List.getElem?_map, List.getElem?_map, atI, atJ, Option.map_some, Option.map_some, opcode, space]

theorem getElem?_lut_of_command {C : Codec} (wf : C.wf = true) {i : Nat} {c : Command} (atI : C.cmdTable[i]? = some c) :
    (lut C.cmdTable c.space)[c.opcode]? = some (some i) := by
  rw [lut_eq_foldl]
  refine getElem?_foldl_lutWrite_of_unique _ _ ?_ (.inr ⟨?_, (c, i), List.mk_mem_zipIdx_iff_getElem?.2 atI, rfl, rfl⟩)
  · rintro ⟨d, j⟩ mem ⟨opcode, space⟩
    exact C.index_unique wf atI (List.mk_mem_zipIdx_iff_getElem?.1 mem) opcode space
  · rw [List.length_replicate]
    exact lt_lutSize (List.mem_of_getElem? atI)

/-- The entry of a key that no command has is empty, or beyond the array. -/
theorem getElem?_lut_of_no_command {table : List Command} {o : Nat} {sp : Space}
    (absent : ∀ c ∈ table, ¬(c.opcode = o ∧ c.space = sp)) :
    (lut table sp)[o]? = if o < lutSize table sp then some none else none := by
  rw [lut_eq_foldl, getElem?_foldl_lutWrite_of_no_key, List.getElem?_replicate]
  rintro ⟨c, i⟩ mem
  exact absent c (List.mem_of_getElem? (List.mk_mem_zipIdx_iff_getElem?.1 mem))

/-! ### `LOOKUP_OPCODE` (43 R194) -/

theorem lookupOpcode_of_command {C : Codec} (wf : C.wf = true) {i : Nat} {c : Command} (atI : C.cmdTable[i]? = some c) :
    lookupOpcode C c.opcode c.space = .ok i := by
  rw [lookupOpcode, getElem?_lut_of_command wf atI]

theorem lookupOpcode_of_no_command {C : Codec} {o : Nat} {sp : Space}
    (absent : ∀ c ∈ C.cmdTable, ¬(c.opcode = o ∧ c.space = sp)) :
    lookupOpcode C o sp = .error (.unknownOpcode o sp) := by
  rw [lookupOpcode, getElem?_lut_of_no_command absent]
  by_cases inside : o < lutSize C.cmdTable sp
  · rw [if_pos inside]
  · rw [if_neg inside]

/-- A lookup that answers has found a command with the key: were there none, it would have failed, and the one there is fixes the
answer. -/
theorem command_of_lookupOpcode {C : Codec} (wf : C.wf = true) {o i : Nat} {sp : Space} (found : lookupOpcode C o sp = .ok i) :
    ∃ c, C.cmdTable[i]? = some c ∧ c.opcode = o ∧ c.space = sp := by
  by_cases present : ∃ c ∈ C.cmdTable, c.opcode = o ∧ c.space = sp
  · obtain ⟨c, mem, rfl, rfl⟩ := present
    obtain ⟨j, atJ⟩ := List.mem_iff_getElem?.1 mem
    obtain rfl : j = i := Except.ok.inj ((lookupOpcode_of_command wf atJ).symm.trans found)
    exact ⟨c, atJ, rfl, rfl⟩
  · rw [lookupOpcode_of_no_command fun c mem key => present ⟨c, mem, key⟩] at found
    cases found

/-! ### The obligation -/

/-- Settles O6: the two directions of the lookup of a command, and the lookup of a key no command has. -/
theorem lookupFindsTheCommand : Obligations.LookupFindsTheCommand := by
  intro C o sp wf
  refine ⟨fun i => ⟨command_of_lookupOpcode wf, ?_⟩, lookupOpcode_of_no_command⟩
  rintro ⟨c, atI, rfl, rfl⟩
  exact lookupOpcode_of_command wf atI

end Sys2Proof

/-! PROOFS. Data movement, the bitwise operations, and the square root of a negative number: the state each instruction ends in, and what
its result register holds (45 R270 to R272, R282 to R284; obligations O28, O29, O32, O38). -/

namespace Sys2Proof.Machine

/-! ### The state each instruction ends in -/

@[simp] theorem exec_mov (rd rn : Reg) (s : State) : exec (.mov rd rn) s = .next (s.setReg rd (s.getReg rn)) := rfl

@[simp] theorem exec_ldc (rd : Reg) (imm : Int) (s : State) : exec (.ldc rd imm) s = .next (s.setReg rd (constant imm)) := rfl

@[simp] theorem exec_or (rd rl rr : Reg) (s : State) :
    exec (.or rd rl rr) s = .next (s.setReg rd (s.getReg rl ||| s.getReg rr)) := rfl

@[simp] theorem exec_xor (rd rl rr : Reg) (s : State) :
    exec (.xor rd rl rr) s = .next (s.setReg rd (s.getReg rl ^^^ s.getReg rr)) := rfl

@[simp] theorem exec_and (rd rl rr : Reg) (s : State) :
    exec (.and rd rl rr) s = .next (s.setReg rd (s.getReg rl &&& s.getReg rr)) := rfl

theorem exec_sqrt (rd rn : Reg) (s : State) : exec (.sqrt rd rn) s = execSqrt rd rn s := rfl

/-- The test of the sign comes before the root: a negative source ends the handler in the failure that carries it. -/
theorem exec_sqrt_of_neg {rn : Reg} {s : State} (negative : (s.getReg rn).toInt < 0) (rd : Reg) :
    exec (.sqrt rd rn) s = .next (s.raise (.negativeSquareRoot (s.getReg rn).toInt)) := by
  rw [exec_sqrt, execSqrt, if_pos negative, State.complete_error]

/-- Taking a failure is the fault it is named for. -/
theorem State.raise_faultedBy (s : State) (f : Failure) : State.FaultedBy s (s.raise f) f := rfl

/-! ### The constant of `ldc` -/

/-- Sign extension to 64 bits loses nothing of a number in the signed 64-bit range. -/
theorem toInt_constant {imm : Int} (lower : -2 ^ 63 ≤ imm) (upper : imm < 2 ^ 63) : (constant imm).toInt = imm :=
  BitVec.toInt_ofInt_eq_self (by decide) lower upper

/-! ### The obligations -/

/-- Settles O28: `mov` is the one register write of the source's value. -/
theorem movCopiesTheRegister : Obligations.MovCopiesTheRegister :=
  fun rd rn s => ⟨_, exec_mov rd rn s, State.setReg_regResult s rd _⟩

/-- Settles O29: the signed 20-bit range lies inside the signed 64-bit range. -/
theorem ldcLoadsTheSignedConstant : Obligations.LdcLoadsTheSignedConstant := by
  intro rd imm s lower upper
  exact ⟨_, _, exec_ldc rd imm s, State.setReg_regResult s rd _, toInt_constant (by omega) (by omega)⟩

/-- Settles O32: each of the three writes one register, and its word operation acts bit by bit. -/
theorem orXorAndActBitwise : Obligations.OrXorAndActBitwise := by
  intro rd rl rr s
  refine ⟨⟨_, _, exec_or rd rl rr s, State.setReg_regResult s rd _, fun k _ => ?_⟩,
    ⟨_, _, exec_xor rd rl rr s, State.setReg_regResult s rd _, fun k _ => ?_⟩,
    ⟨_, _, exec_and rd rl rr s, State.setReg_regResult s rd _, fun k _ => ?_⟩⟩
  · exact BitVec.getLsbD_or
  · exact BitVec.getLsbD_xor
  · exact BitVec.getLsbD_and

/-- Settles O38: the failure carries the source's value, and its status is the one asked for whatever that value is. -/
theorem sqrtOfNegativeFaults : Obligations.SqrtOfNegativeFaults :=
  fun rd _ s negative => ⟨_, _, exec_sqrt_of_neg negative rd, State.raise_faultedBy s _, rfl⟩

end Sys2Proof.Machine

/-! PROOFS. The step of the engine on a fetched word, and the control and stack instructions that end a run, return from a call or pop the
value stack (46 R310, R318, R320, R329; obligations O16, O43, O46, O56). -/

namespace Sys2Proof.Machine

/-! ### The engine on a fetched word (46 R310) -/

/-- A word at `ip` rules out the end of the buffer, so what the engine does is what decoding the word answers. -/
theorem engineStep_of_fetched (C : Codec) {s : State} {w : IWord} (running : s.run = .running)
    (fetched : s.program[s.ip]? = some w) :
    (∃ f, decodeWith C w = .error f ∧ engineStep C s = .next (s.advance.raise f))
      ∨ (∃ i, decodeWith C w = .ok i ∧ engineStep C s = exec i s.advance) := by
  obtain ⟨inside, -⟩ := List.getElem?_eq_some_iff.1 fetched
  rcases engineStep_running C s running with ⟨atEnd, -⟩ | ⟨beyond, -⟩ | ⟨w', fetched', -, decoded⟩
  · omega
  · omega
  · obtain rfl : w = w' := Option.some.inj (fetched.symm.trans fetched')
    exact decoded

theorem engineStep_of_decode_ok {C : Codec} {s : State} {w : IWord} {i : Instr} (running : s.run = .running)
    (fetched : s.program[s.ip]? = some w) (decoded : decodeWith C w = .ok i) : engineStep C s = exec i s.advance := by
  rcases engineStep_of_fetched C running fetched with ⟨f, failed, -⟩ | ⟨j, decoded', stepped⟩
  · cases decoded.symm.trans failed
  · obtain rfl : i = j := Except.ok.inj (decoded.symm.trans decoded')
    exact stepped

theorem engineStep_of_decode_error {C : Codec} {s : State} {w : IWord} {f : Failure} (running : s.run = .running)
    (fetched : s.program[s.ip]? = some w) (failed : decodeWith C w = .error f) :
    engineStep C s = .next (s.advance.raise f) := by
  rcases engineStep_of_fetched C running fetched with ⟨g, failed', stepped⟩ | ⟨i, decoded, -⟩
  · obtain rfl : f = g := Except.error.inj (failed.symm.trans failed')
    exact stepped
  · cases failed.symm.trans decoded

/-! ### The stacks and the target, case by case -/

theorem State.topCall_nil {s : State} (empty : s.callStack = []) : s.topCall = .error (.stackUnderflow .call) := by
  simp [State.topCall, empty]

theorem State.topCall_cons {s : State} {top : Nat} {rest : List Nat} (stack : s.callStack = top :: rest) :
    s.topCall = .ok top := by
  simp [State.topCall, stack]

theorem State.popValue_nil {s : State} (empty : s.valueStack = []) : s.popValue = .error (.stackUnderflow .value) := by
  simp [State.popValue, empty]

theorem State.popValue_cons {s : State} {v : Word} {rest : List Word} (stack : s.valueStack = v :: rest) :
    s.popValue = .ok (v, { s with valueStack := rest }) := by
  simp [State.popValue, stack]

/-- An index in bounds is the target it is checked as: no number is lost between `Int` and `Nat`. -/
theorem State.checkTarget_of_inBounds {s : State} {n : Nat} (inside : inBounds s.targetEndOk s.program.length n = true) :
    s.checkTarget n = .ok n :=
  if_pos inside

theorem State.checkTarget_of_not_inBounds {s : State} {t : Int} (outside : inBounds s.targetEndOk s.program.length t = false) :
    s.checkTarget t = .error (.outOfBounds t) := by
  simp [State.checkTarget, outside]

/-! ### `ret` (46 R318) -/

theorem exec_ret (s : State) : exec .ret s = execRet s := rfl

theorem exec_ret_of_empty {s : State} (empty : s.callStack = []) : exec .ret s = .next (s.raise (.stackUnderflow .call)) := by
  rw [exec_ret, execRet, State.topCall_nil empty]
  rfl

/-- The target is checked before the pop, so a fault leaves the index on the stack. -/
theorem exec_ret_of_cons {s : State} {top : Nat} {rest : List Nat} (stack : s.callStack = top :: rest) :
    exec .ret s = s.complete (do
      let t ← s.checkTarget top
      .ok { s with callStack := rest, ip := t }) := by
  rw [exec_ret, execRet, State.topCall_cons stack, stack]
  rfl

theorem exec_ret_of_not_inBounds {s : State} {top : Nat} {rest : List Nat} (stack : s.callStack = top :: rest)
    (outside : inBounds s.targetEndOk s.program.length top = false) : exec .ret s = .next (s.raise (.outOfBounds top)) := by
  rw [exec_ret_of_cons stack, State.checkTarget_of_not_inBounds outside]
  rfl

theorem exec_ret_of_inBounds {s : State} {top : Nat} {rest : List Nat} (stack : s.callStack = top :: rest)
    (inside : inBounds s.targetEndOk s.program.length top = true) :
    exec .ret s = .next { s with callStack := rest, ip := top } := by
  rw [exec_ret_of_cons stack, State.checkTarget_of_inBounds inside]
  rfl

/-! ### `popr` and `halt` (46 R320, R329) -/

theorem exec_popr (rd : Reg) (s : State) : exec (.popr rd) s = execPopr rd s := rfl

theorem exec_popr_of_empty {s : State} (empty : s.valueStack = []) (rd : Reg) :
    exec (.popr rd) s = .next (s.raise (.stackUnderflow .value)) := by
  rw [exec_popr, execPopr, State.popValue_nil empty]
  rfl

theorem exec_popr_of_cons {s : State} {v : Word} {rest : List Word} (stack : s.valueStack = v :: rest) (rd : Reg) :
    exec (.popr rd) s = .next (State.setReg { s with valueStack := rest } rd v) := by
  rw [exec_popr, execPopr, State.popValue_cons stack]
  rfl

@[simp] theorem exec_halt (s : State) : exec .halt s = .next { s with run := .halted } := rfl

/-- An engine whose run has ended answers a fault, never a next state (60 R368). -/
theorem step_ne_next_of_final {s : State} (final : s.run ≠ .running) (u : State) : step s ≠ .next u := by
  rw [step_final s final]
  exact nofun

/-! ### The obligations -/

/-- Settles O16: the machine's step is the engine's at the reference codec, so one pair of facts serves both. -/
theorem stepRunsTheDecodedInstruction : Obligations.StepRunsTheDecodedInstruction := by
  intro s w running fetched
  have ofOk (C : Codec) (i : Instr) := engineStep_of_decode_ok (C := C) (i := i) running fetched
  have ofError (C : Codec) (f : Failure) := engineStep_of_decode_error (C := C) (f := f) running fetched
  exact ⟨ofOk refCodec, ofError refCodec, fun C => ⟨ofOk C, ofError C⟩⟩

/-- Settles O43: by the call stack, then by the bound of its top. -/
theorem retPopsOrFaults : Obligations.RetPopsOrFaults := by
  intro s
  refine ⟨fun empty => ?_, fun top rest stack => ⟨fun outside => ?_, fun inside => ?_⟩⟩
  · exact ⟨_, _, exec_ret_of_empty empty, State.raise_faultedBy s _, rfl⟩
  · exact ⟨_, _, exec_ret_of_not_inBounds stack outside, State.raise_faultedBy s _, rfl⟩
  · exact exec_ret_of_inBounds stack inside

/-- Settles O46: by the value stack; the pop changes no register, so the one write gives the register result. -/
theorem poprPopsOrFaults : Obligations.PoprPopsOrFaults := by
  intro rd s
  refine ⟨fun empty => ?_, fun v rest stack => ?_⟩
  · exact ⟨_, _, exec_popr_of_empty empty rd, State.raise_faultedBy s _, rfl⟩
  · exact ⟨_, exec_popr_of_cons stack rd, State.setReg_regResult _ rd v⟩

/-- Settles O56: Halted is not Running, whatever the rest of the state is. -/
theorem haltEndsTheRun : Obligations.HaltEndsTheRun :=
  fun s => ⟨_, exec_halt s, rfl, step_ne_next_of_final RunState.noConfusion⟩

end Sys2Proof.Machine

/-! PROOFS. What the plain write leaves of a word, the two register codings, and the codecs of the shapes: the decoder of a shape as a
function of the header and the argument, the encoder as a built word, and the round trip (40 R115, R116, 41 R136, 42 R154 to R171;
obligations O2, O5, O7, O8). -/

namespace Sys2Proof

/-! ### The plain write and the register codings (40 section 3, 41 section 3) -/

section
variable {L : HdrLayout}

/-- A one-bit read of a built word sees the argument alone. -/
theorem getBitfield_one_build (hL : L.Lawful) (w : IWord) (o : BitVec 6) (e r : Bool) (a : Arg) {p : Nat} (hp : p < 24)
    (same : fld a p 1 = fld (L.arg w) p 1) : getBitfield L (L.build o e r a) p 1 = getBitfield L w p 1 := by
  rw [getBitfield_build hL o e r a p 1 hp, getBitfield_ok w p 1 hp, same]

/-- Head-bit mode: the number is read back, `EXT` is its high bit, and nothing else changes (41 R136). -/
theorem setRegister_head_laws (hL : L.Lawful) (w : IWord) {pos n : Nat} (hn : n < 32) (window : pos + 4 ≤ 24) :
    ∃ w', setRegister L w pos true n = .ok w' ∧ getRegister L w' pos true = .ok n
      ∧ (L.ext w' = true ↔ 16 ≤ n) ∧ L.opc w' = L.opc w ∧ L.rsv w' = L.rsv w
      ∧ ∀ p, p < 24 → (p < pos ∨ pos + 4 ≤ p) → getBitfield L w' p 1 = getBitfield L w p 1 := by
  have nibble : n % 16 < 2 ^ 4 := Nat.mod_lt n (by decide)
  refine ⟨_, setRegister_head hL w pos n window hn, ?_, ?_, hL.opc_build .., hL.rsv_build .., fun p hp apart => ?_⟩
  · rw [getRegister_head _ pos window, hL.ext_build, hL.arg_build, fld_ins_same _ pos 4 _ window nibble, headBit_nibble n hn]
  · rw [hL.ext_build, decide_eq_true_iff]
  · exact getBitfield_one_build hL w _ _ _ _ hp (fld_ins_disjoint _ pos 4 _ p 1 window hp nibble (by omega))

/-- Inline mode: the number is read back and nothing else changes, `EXT` included (41 R136). -/
theorem setRegister_inline_laws (hL : L.Lawful) (w : IWord) {pos n : Nat} (hn : n < 32) (window : pos + 5 ≤ 24) :
    ∃ w', setRegister L w pos false n = .ok w' ∧ getRegister L w' pos false = .ok n
      ∧ L.ext w' = L.ext w ∧ L.opc w' = L.opc w ∧ L.rsv w' = L.rsv w
      ∧ ∀ p, p < 24 → (p < pos ∨ pos + 5 ≤ p) → getBitfield L w' p 1 = getBitfield L w p 1 := by
  refine ⟨_, setRegister_inline w pos n window hn, ?_, hL.ext_build .., hL.opc_build .., hL.rsv_build .., fun p hp apart => ?_⟩
  · rw [getRegister_inline _ pos window, hL.arg_build, fld_ins_same _ pos 5 n window hn]
  · exact getBitfield_one_build hL w _ _ _ _ hp (fld_ins_disjoint _ pos 5 n p 1 window hp hn (by omega))

/-- `get_directive_register` in head-bit mode, inside the window (41 R131). -/
theorem getDirectiveRegister_head (w : IWord) (pos : Nat) (h : pos + 10 + 4 ≤ 24) :
    getDirectiveRegister L w pos true = .ok (16 * (L.ext w).toNat + fld (L.arg w) (pos + 10) 4) :=
  getRegister_head w (pos + 10) h

/-- `get_directive_register` in inline mode, inside the window (41 R131). -/
theorem getDirectiveRegister_inline (w : IWord) (pos : Nat) (h : pos + 10 + 5 ≤ 24) :
    getDirectiveRegister L w pos false = .ok (fld (L.arg w) (pos + 10) 5) :=
  getRegister_inline w (pos + 10) h

/-- `get_directive_opcode` always answers: its field is the first ten positions (42 R152). -/
theorem getDirectiveOpcode_ok (w : IWord) : getDirectiveOpcode L w = .ok (fld (L.arg w) 0 10) :=
  getBitfield_ok w 0 10 (by decide)

/-- A number carried by the head bit and a nibble is a register number. -/
theorem headBit_add_lt (e : Bool) (a : Arg) (pos : Nat) : 16 * e.toNat + fld a pos 4 < 32 := by
  have nibble := fld_lt a pos 4
  have bit := Bool.toNat_le e
  omega

end

/-! ### Validity, shape by shape (42 R150) -/

theorem DecodedInstr.valid_triple {o rd rl rr : Nat} :
    (DecodedInstr.triple o rd rl rr).valid = true ↔ o < 1024 ∧ rd < 32 ∧ rl < 32 ∧ rr < 32 := by
  simp [DecodedInstr.valid, and_assoc]

theorem DecodedInstr.valid_double {o rd rn : Nat} : (DecodedInstr.double o rd rn).valid = true ↔ o < 1024 ∧ rd < 32 ∧ rn < 32 := by
  simp [DecodedInstr.valid, and_assoc]

theorem DecodedInstr.valid_single {o rd : Nat} : (DecodedInstr.single o rd).valid = true ↔ o < 1024 ∧ rd < 32 := by
  simp [DecodedInstr.valid]

theorem DecodedInstr.valid_noarg {o : Nat} : (DecodedInstr.noarg o).valid = true ↔ o < 1024 := by
  simp [DecodedInstr.valid]

theorem DecodedInstr.valid_ldc {o rd : Nat} {imm : Int} :
    (DecodedInstr.ldc o rd imm).valid = true ↔ o < 64 ∧ rd < 32 ∧ -524288 ≤ imm ∧ imm ≤ 524287 := by
  simp [DecodedInstr.valid, fitsSimm20, and_assoc]

theorem DecodedInstr.valid_move {o rd rn : Nat} : (DecodedInstr.move o rd rn).valid = true ↔ o < 64 ∧ rd < 32 ∧ rn < 32 := by
  simp [DecodedInstr.valid, and_assoc]

theorem DecodedInstr.valid_jump {o cond : Nat} {off : Int} :
    (DecodedInstr.jump o cond off).valid = true ↔ o < 64 ∧ cond < 32 ∧ -524288 ≤ off ∧ off ≤ 524287 := by
  simp [DecodedInstr.valid, fitsSimm20, and_assoc]

/-! ### The decoder of a shape as a function of the views (42 R154 to R160) -/

/-- What the binary-decoder of a shape reads in a word with these views. -/
def readShape (sh : Shape) (o : BitVec 6) (e : Bool) (a : Arg) : DecodedInstr :=
  match sh with
  | .triple => .triple (fld a 0 10) (16 * e.toNat + fld a 10 4) (fld a 14 5) (fld a 19 5)
  | .double => .double (fld a 0 10) (16 * e.toNat + fld a 10 4) (fld a 14 5)
  | .single => .single (fld a 0 10) (16 * e.toNat + fld a 10 4)
  | .noarg => .noarg (fld a 0 10)
  | .ldc => .ldc o.toNat (16 * e.toNat + fld a 0 4) (sext20 (fld a 4 20))
  | .move => .move o.toNat (16 * e.toNat + fld a 0 4) (fld a 6 5)
  | .jump => .jump o.toNat (16 * e.toNat + fld a 0 4) (sext20 (fld a 4 20))

/-- Every binary-decoder succeeds on every word: all its windows lie in the argument. -/
theorem decodeShape_eq_readShape (L : HdrLayout) (sh : Shape) (w : IWord) :
    decodeShape L sh w = .ok (readShape sh (L.opc w) (L.ext w) (L.arg w)) := by
  cases sh with
  | triple =>
    rw [decodeShape, decodeTriple, getDirectiveOpcode_ok, getDirectiveRegister_head w 0 (by decide),
      getDirectiveRegister_inline w 4 (by decide), getDirectiveRegister_inline w 9 (by decide)]; rfl
  | double =>
    rw [decodeShape, decodeDouble, getDirectiveOpcode_ok, getDirectiveRegister_head w 0 (by decide),
      getDirectiveRegister_inline w 4 (by decide)]; rfl
  | single => rw [decodeShape, decodeSingle, getDirectiveOpcode_ok, getDirectiveRegister_head w 0 (by decide)]; rfl
  | noarg => rw [decodeShape, decodeNoarg, getDirectiveOpcode_ok]; rfl
  | ldc => rw [decodeShape, decodeLdc, getRegister_head w 0 (by decide), getBitfield_ok w 4 20 (by decide)]; rfl
  | move => rw [decodeShape, decodeMove, getRegister_head w 0 (by decide), getRegister_inline w 6 (by decide)]; rfl
  | jump => rw [decodeShape, decodeJump, getRegister_head w 0 (by decide), getBitfield_ok w 4 20 (by decide)]; rfl

@[simp] theorem readShape_shape (sh : Shape) (o : BitVec 6) (e : Bool) (a : Arg) : (readShape sh o e a).shape = sh := by
  cases sh <;> rfl

/-- Every field that is read lies in its range (42 R150). -/
theorem readShape_valid (sh : Shape) (o : BitVec 6) (e : Bool) (a : Arg) : (readShape sh o e a).valid = true := by
  have opcode : fld a 0 10 < 1024 := fld_lt a 0 10
  have head (pos : Nat) := headBit_add_lt e a pos
  have inline (pos : Nat) : fld a pos 5 < 32 := fld_lt a pos 5
  have signed := sext20_range _ (fld_lt a 4 20)
  cases sh with
  | triple => exact DecodedInstr.valid_triple.2 ⟨opcode, head 10, inline 14, inline 19⟩
  | double => exact DecodedInstr.valid_double.2 ⟨opcode, head 10, inline 14⟩
  | single => exact DecodedInstr.valid_single.2 ⟨opcode, head 10⟩
  | noarg => exact DecodedInstr.valid_noarg.2 opcode
  | ldc => exact DecodedInstr.valid_ldc.2 ⟨o.isLt, head 0, signed⟩
  | move => exact DecodedInstr.valid_move.2 ⟨o.isLt, head 0, inline 6⟩
  | jump => exact DecodedInstr.valid_jump.2 ⟨o.isLt, head 0, signed⟩

/-! ### The fields of a decoded instruction, and its word (42 R153, R162 to R168) -/

/-- The argument fields a decoded instruction is written as: plain position, width and value. -/
def DecodedInstr.argFields : DecodedInstr → List (Nat × Nat × Nat)
  | .triple o rd rl rr => [(0, 10, o), (10, 4, rd % 16), (14, 5, rl), (19, 5, rr)]
  | .double o rd rn => [(0, 10, o), (10, 4, rd % 16), (14, 5, rn)]
  | .single o rd => [(0, 10, o), (10, 4, rd % 16)]
  | .noarg o => [(0, 10, o)]
  | .ldc _ rd imm => [(0, 4, rd % 16), (4, 20, tc20 imm)]
  | .move _ rd rn => [(0, 4, rd % 16), (6, 5, rn)]
  | .jump _ cond off => [(0, 4, cond % 16), (4, 20, tc20 off)]

/-- The `EXT` bit a decoded instruction is written with: set for a head-bit operand of 16 and above. -/
def DecodedInstr.headBit : DecodedInstr → Bool
  | .triple _ rd _ _ | .double _ rd _ | .single _ rd | .ldc _ rd _ | .move _ rd _ | .jump _ rd _ => decide (16 ≤ rd)
  | .noarg _ => false

/-- The `OPC` bits a decoded instruction is written with: the escape or the base opcode. -/
def DecodedInstr.opcBits (C : Codec) (d : DecodedInstr) : BitVec 6 :=
  match d.shape.space with
  | .directive => C.opcDirective
  | .base => BitVec.ofNat 6 d.opcode

/-- An argument with several fields written, first to last. -/
def writeFields (fs : List (Nat × Nat × Nat)) (a : Arg) : Arg := fs.foldl (fun b f => ins b f.1 f.2.1 f.2.2) a

/-- The argument of a decoded instruction: its fields, and 0 elsewhere. -/
def DecodedInstr.argBits (d : DecodedInstr) : Arg := writeFields d.argFields 0

/-- The word of a decoded instruction. -/
def DecodedInstr.word (C : Codec) (d : DecodedInstr) : IWord :=
  C.layout.build (d.opcBits C) d.headBit false d.argBits

/-- A field inside the argument with a value that fits. -/
def FieldFits (f : Nat × Nat × Nat) : Prop := f.1 + f.2.1 ≤ 24 ∧ f.2.2 < 2 ^ f.2.1

/-- A field that comes before another and shares no position with it. -/
def FieldBefore (f g : Nat × Nat × Nat) : Prop := f.1 + f.2.1 ≤ g.1

theorem writeFields_cons (f : Nat × Nat × Nat) (fs : List (Nat × Nat × Nat)) (a : Arg) :
    writeFields (f :: fs) a = writeFields fs (ins a f.1 f.2.1 f.2.2) := rfl

/-- Writing several fields leaves a range disjoint from all of them alone. -/
theorem fld_writeFields_of_disjoint {pos len : Nat} (window : pos + len ≤ 24) (fs : List (Nat × Nat × Nat)) (a : Arg)
    (fit : ∀ f ∈ fs, FieldFits f) (apart : ∀ f ∈ fs, f.1 + f.2.1 ≤ pos ∨ pos + len ≤ f.1) :
    fld (writeFields fs a) pos len = fld a pos len := by
  induction fs generalizing a with
  | nil => rfl
  | cons f fs ih =>
    obtain ⟨⟨inside, small⟩, fit⟩ := List.forall_mem_cons.1 fit
    obtain ⟨here, apart⟩ := List.forall_mem_cons.1 apart
    rw [writeFields_cons, ih _ fit apart, fld_ins_disjoint a _ _ _ pos len inside window small here]

/-- Each of several fields that rise in position is read back as it was written. -/
theorem fld_writeFields_of_mem (fs : List (Nat × Nat × Nat)) (a : Arg) (fit : ∀ f ∈ fs, FieldFits f)
    (rising : fs.Pairwise FieldBefore) {pos len v : Nat} (mem : (pos, len, v) ∈ fs) :
    fld (writeFields fs a) pos len = v := by
  induction fs generalizing a with
  | nil => cases mem
  | cons g fs ih =>
    obtain ⟨⟨inside, small⟩, fits⟩ := List.forall_mem_cons.1 fit
    obtain ⟨before, rising⟩ := List.pairwise_cons.1 rising
    rw [writeFields_cons]
    obtain rfl | later := List.mem_cons.1 mem
    · rw [fld_writeFields_of_disjoint inside fs _ fits fun f hf => .inr (before f hf), fld_ins_same a pos len v inside small]
    · exact ih _ fits rising later

/-- The fields of a decoded instruction stand where its shape has them. -/
theorem DecodedInstr.argFields_ranges (d : DecodedInstr) : d.argFields.map (fun f => (f.1, f.2.1)) = d.shape.fields := by
  cases d <;> rfl

theorem DecodedInstr.argFields_rising (d : DecodedInstr) : d.argFields.Pairwise FieldBefore := by
  cases d <;> simp [DecodedInstr.argFields, FieldBefore]

/-- The fields of a valid decoded instruction fit. -/
theorem DecodedInstr.argFields_fit {d : DecodedInstr} (valid : d.valid = true) : ∀ f ∈ d.argFields, FieldFits f := by
  have nibble (n : Nat) : n % 16 < 16 := Nat.mod_lt n (by decide)
  have pattern (z : Int) : tc20 z < 1048576 := tc20_lt z
  cases d <;> simp [DecodedInstr.valid] at valid <;> simp [DecodedInstr.argFields, FieldFits, nibble, pattern, valid]

theorem DecodedInstr.fld_argBits {d : DecodedInstr} (valid : d.valid = true) {pos len v : Nat} (mem : (pos, len, v) ∈ d.argFields) :
    fld d.argBits pos len = v :=
  fld_writeFields_of_mem d.argFields 0 (argFields_fit valid) d.argFields_rising mem

/-! ### The encoders (42 R162 to R168) -/

section
variable {C : Codec}

theorem startDirective_ok (hL : C.layout.Lawful) {o : Nat} (ho : o < 1024) :
    startDirective C o = .ok (C.layout.build C.opcDirective false false (ins 0 0 10 o)) := by
  rw [startDirective, setDirectiveOpcode, if_neg (by omega), setBitfield_ok _ 0 10 o (by decide) ho, hL.opc_build, hL.ext_build,
    hL.rsv_build, hL.arg_build]

theorem startBase_ok (hL : C.layout.Lawful) {o : Nat} (ho : o < 64) :
    startBase C o = .ok (C.layout.build (BitVec.ofNat 6 o) false false 0) := by
  rw [startBase, setBaseOpcode, if_neg (by omega), hL.ext_build, hL.rsv_build, hL.arg_build]

/-- A head-bit register write to a built word. -/
theorem setRegister_head_build (hL : C.layout.Lawful) (o : BitVec 6) (e r : Bool) (a : Arg) {pos n : Nat} (window : pos + 4 ≤ 24)
    (hn : n < 32) : setRegister C.layout (C.layout.build o e r a) pos true n
      = .ok (C.layout.build o (decide (16 ≤ n)) r (ins a pos 4 (n % 16))) := by
  rw [setRegister_head hL _ pos n window hn, hL.opc_build, hL.rsv_build, hL.arg_build]

/-- An inline register write to a built word. -/
theorem setRegister_inline_build (hL : C.layout.Lawful) (o : BitVec 6) (e r : Bool) (a : Arg) {pos n : Nat} (window : pos + 5 ≤ 24)
    (hn : n < 32) : setRegister C.layout (C.layout.build o e r a) pos false n = .ok (C.layout.build o e r (ins a pos 5 n)) := by
  rw [setRegister_inline _ pos n window hn, hL.opc_build, hL.ext_build, hL.rsv_build, hL.arg_build]

/-- A signed write to a built word. -/
theorem setSimm20_build (hL : C.layout.Lawful) (o : BitVec 6) (e r : Bool) (a : Arg) {z : Int} (lower : -524288 ≤ z)
    (upper : z ≤ 524287) :
    setSimm20 C.layout (C.layout.build o e r a) 4 z = .ok (C.layout.build o e r (ins a 4 20 (tc20 z))) := by
  rw [setSimm20_ok _ 4 z (by decide) lower upper, hL.opc_build, hL.ext_build, hL.rsv_build, hL.arg_build]

/-- The reserved bits of a move, written 0 over 0, stay as they were (42 R167). -/
theorem setBitfield_reserved_build (hL : C.layout.Lawful) (o : BitVec 6) (e r : Bool) (a : Arg) (clear : fld a 4 2 = 0) :
    setBitfield C.layout (C.layout.build o e r a) 4 2 0 = .ok (C.layout.build o e r a) := by
  have writeBack := setBitfield_fld hL (C.layout.build o e r a) 4 2 (by decide)
  rwa [hL.arg_build, clear] at writeBack

/-- The encoder of its shape gives a valid decoded instruction its word: each write extends the argument by one field. -/
theorem encodeShape_of_valid (hL : C.layout.Lawful) {d : DecodedInstr} (valid : d.valid = true) :
    encodeShape C d = .ok (d.word C) := by
  cases d with
  | triple o rd rl rr =>
    obtain ⟨ho, hd, hl, hr⟩ := DecodedInstr.valid_triple.1 valid
    simp only [encodeShape, encodeTriple, setDirectiveRegister, startDirective_ok hL ho, bind, Except.bind,
      setRegister_head_build hL _ _ _ _ (show 0 + 10 + 4 ≤ 24 by decide) hd,
      setRegister_inline_build hL _ _ _ _ (show 4 + 10 + 5 ≤ 24 by decide) hl,
      setRegister_inline_build hL _ _ _ _ (show 9 + 10 + 5 ≤ 24 by decide) hr]
    rfl
  | double o rd rn =>
    obtain ⟨ho, hd, hn⟩ := DecodedInstr.valid_double.1 valid
    simp only [encodeShape, encodeDouble, setDirectiveRegister, startDirective_ok hL ho, bind, Except.bind,
      setRegister_head_build hL _ _ _ _ (show 0 + 10 + 4 ≤ 24 by decide) hd,
      setRegister_inline_build hL _ _ _ _ (show 4 + 10 + 5 ≤ 24 by decide) hn]
    rfl
  | single o rd =>
    obtain ⟨ho, hd⟩ := DecodedInstr.valid_single.1 valid
    simp only [encodeShape, encodeSingle, setDirectiveRegister, startDirective_ok hL ho, bind, Except.bind,
      setRegister_head_build hL _ _ _ _ (show 0 + 10 + 4 ≤ 24 by decide) hd]
    rfl
  | noarg o => exact startDirective_ok hL (DecodedInstr.valid_noarg.1 valid)
  | ldc o rd imm =>
    obtain ⟨ho, hd, lower, upper⟩ := DecodedInstr.valid_ldc.1 valid
    simp only [encodeShape, encodeLdc, startBase_ok hL ho, bind, Except.bind,
      setRegister_head_build hL _ _ _ _ (show 0 + 4 ≤ 24 by decide) hd, setSimm20_build hL _ _ _ _ lower upper]
    rfl
  | move o rd rn =>
    obtain ⟨ho, hd, hn⟩ := DecodedInstr.valid_move.1 valid
    have clear : fld (ins 0 0 4 (rd % 16)) 4 2 = 0 :=
      fld_ins_disjoint 0 0 4 (rd % 16) 4 2 (by decide) (by decide) (Nat.mod_lt rd (by decide)) (by decide)
    simp only [encodeShape, encodeMove, startBase_ok hL ho, bind, Except.bind,
      setRegister_head_build hL _ _ _ _ (show 0 + 4 ≤ 24 by decide) hd, setBitfield_reserved_build hL _ _ _ _ clear,
      setRegister_inline_build hL _ _ _ _ (show 6 + 5 ≤ 24 by decide) hn]
    rfl
  | jump o cond off =>
    obtain ⟨ho, hc, lower, upper⟩ := DecodedInstr.valid_jump.1 valid
    simp only [encodeShape, encodeJump, startBase_ok hL ho, bind, Except.bind,
      setRegister_head_build hL _ _ _ _ (show 0 + 4 ≤ 24 by decide) hc, setSimm20_build hL _ _ _ _ lower upper]
    rfl

/-! ### The round trip and the canonical form (42 R169, R170) -/

/-- The views a valid decoded instruction is written with are read as that instruction: each field is read back as written. -/
theorem readShape_views {d : DecodedInstr} (valid : d.valid = true) :
    readShape d.shape (d.opcBits C) d.headBit d.argBits = d := by
  have read {pos len v : Nat} := DecodedInstr.fld_argBits valid (pos := pos) (len := len) (v := v)
  have base {o : Nat} (h : o < 64) : (BitVec.ofNat 6 o).toNat = o := Nat.mod_eq_of_lt h
  cases d with
  | triple o rd rl rr =>
    obtain ⟨-, hd, -, -⟩ := DecodedInstr.valid_triple.1 valid
    rw [DecodedInstr.shape, readShape, DecodedInstr.headBit, read (.head _), read (.tail _ (.head _)),
      read (.tail _ (.tail _ (.head _))), read (.tail _ (.tail _ (.tail _ (.head _)))), headBit_nibble rd hd]
  | double o rd rn =>
    obtain ⟨-, hd, -⟩ := DecodedInstr.valid_double.1 valid
    rw [DecodedInstr.shape, readShape, DecodedInstr.headBit, read (.head _), read (.tail _ (.head _)),
      read (.tail _ (.tail _ (.head _))), headBit_nibble rd hd]
  | single o rd =>
    obtain ⟨-, hd⟩ := DecodedInstr.valid_single.1 valid
    rw [DecodedInstr.shape, readShape, DecodedInstr.headBit, read (.head _), read (.tail _ (.head _)), headBit_nibble rd hd]
  | noarg o => rw [DecodedInstr.shape, readShape, read (.head _)]
  | ldc o rd imm =>
    obtain ⟨ho, hd, lower, upper⟩ := DecodedInstr.valid_ldc.1 valid
    rw [DecodedInstr.shape, readShape, DecodedInstr.headBit, read (.head _), read (.tail _ (.head _)), headBit_nibble rd hd,
      sext20_tc20 imm lower upper]
    exact congrArg (DecodedInstr.ldc · rd imm) (base ho)
  | move o rd rn =>
    obtain ⟨ho, hd, -⟩ := DecodedInstr.valid_move.1 valid
    rw [DecodedInstr.shape, readShape, DecodedInstr.headBit, read (.head _), read (.tail _ (.head _)), headBit_nibble rd hd]
    exact congrArg (DecodedInstr.move · rd rn) (base ho)
  | jump o cond off =>
    obtain ⟨ho, hc, lower, upper⟩ := DecodedInstr.valid_jump.1 valid
    rw [DecodedInstr.shape, readShape, DecodedInstr.headBit, read (.head _), read (.tail _ (.head _)), headBit_nibble cond hc,
      sext20_tc20 off lower upper]
    exact congrArg (DecodedInstr.jump · cond off) (base ho)

theorem decodeShape_word (hL : C.layout.Lawful) {d : DecodedInstr} (valid : d.valid = true) :
    decodeShape C.layout d.shape (d.word C) = .ok d := by
  rw [decodeShape_eq_readShape, DecodedInstr.word, hL.opc_build, hL.ext_build, hL.arg_build, readShape_views valid]

/-- The canonical form, written out: the reserved bit, `EXT` where no operand owns it, the argument positions no field owns, and the
escape (42 R170). -/
theorem canonical_iff (sh : Shape) (w : IWord) : canonical C sh w = true ↔
    C.layout.rsv w = false ∧ (sh.hasHeadBit = false → C.layout.ext w = false)
      ∧ (∀ p, p < 24 → (∀ f ∈ sh.fields, ¬(f.1 ≤ p ∧ p < f.1 + f.2)) → fld (C.layout.arg w) p 1 = 0)
      ∧ (sh.space = .directive → C.layout.opc w = C.opcDirective) := by
  rw [canonical, Bool.and_eq_true, Bool.and_eq_true, Bool.and_eq_true, and_assoc, and_assoc]
  refine and_congr beq_iff_eq (and_congr ?_ (and_congr ?_ ?_))
  · cases sh.hasHeadBit <;> simp
  · rw [List.all_eq_true]
    refine forall_congr' fun p => imp_congr List.mem_range ?_
    rw [Bool.or_eq_true, beq_iff_eq, List.any_eq_true, or_iff_not_imp_left, not_exists]
    refine imp_congr (forall_congr' fun f => ?_) Iff.rfl
    simp
  · cases sh.space <;> simp

/-- The word of a valid decoded instruction is canonical. -/
theorem canonical_word (hL : C.layout.Lawful) {d : DecodedInstr} (valid : d.valid = true) :
    canonical C d.shape (d.word C) = true := by
  rw [canonical_iff, DecodedInstr.word, hL.rsv_build, hL.ext_build, hL.arg_build, hL.opc_build]
  refine ⟨rfl, fun noHead => ?_, fun p hp unowned => ?_, fun directive => ?_⟩
  · cases d with
    | noarg => rfl
    | _ => cases noHead
  · rw [← d.argFields_ranges, List.forall_mem_map] at unowned
    rw [DecodedInstr.argBits, fld_writeFields_of_disjoint hp _ _ (DecodedInstr.argFields_fit valid), fld_zero]
    intro f hf
    have := unowned f hf
    omega
  · rw [DecodedInstr.opcBits, directive]

end

/-! ### The obligations -/

/-- Settles O2: the three answers of the plain write, the last one bit by bit. -/
theorem setBitfieldWritesOnlyTheField : Obligations.SetBitfieldWritesOnlyTheField := by
  intro L w pos len value hL
  refine ⟨fun outside => ⟨_, setBitfield_outside w pos len value outside, rfl⟩,
    fun inside tooWide => ⟨_, setBitfield_tooWide w pos len value inside tooWide, rfl⟩,
    fun inside fits => ⟨_, setBitfield_ok w pos len value inside fits, hL.opc_build .., hL.ext_build .., hL.rsv_build ..,
      fun i hi => ?_⟩⟩
  rw [hL.arg_build, getLsbD_ins _ pos len value i inside fits hi]

/-- Settles O5: the two modes of the register write. -/
theorem registerCodecLaws : Obligations.RegisterCodecLaws :=
  fun _ w _ _ hL hn => ⟨setRegister_head_laws hL w hn, setRegister_inline_laws hL w hn⟩

/-- Settles O7: what a decoder reads is of its shape and in range, whatever the views. -/
theorem shapeDecodersAreTotal : Obligations.ShapeDecodersAreTotal :=
  fun L sh w => ⟨_, decodeShape_eq_readShape L sh w, readShape_shape .., readShape_valid ..⟩

/-- Settles O8: the encoder gives the word of the instruction, which is canonical and is read back field by field. -/
theorem shapeCodecRoundTrip : Obligations.ShapeCodecRoundTrip :=
  fun C d hL valid => ⟨d.word C, encodeShape_of_valid hL valid, decodeShape_word hL valid, canonical_word hL valid⟩

end Sys2Proof

/-! PROOFS. The two multiplexers over any lawful layout and well-formed table: what `DECODE` and `ENCODE` answer for a key of the table and
for any other, their round trip, and the canonical words as the fixed points (43 R200, R201, 42 R170; obligations O10, O11, O12). -/

namespace Sys2Proof

/-! ### A canonical word is the word of what is read in it (42 R170) -/

/-- Equal fields have equal positions. -/
theorem fld_one_eq_of_fld_eq {a b : Arg} {pos len p : Nat} (window : pos + len ≤ 24) (same : fld a pos len = fld b pos len)
    (lower : pos ≤ p) (upper : p < pos + len) : fld a p 1 = fld b p 1 := by
  have bit := congrArg (fun n => n.testBit (pos + len - 1 - p)) same
  have place : 24 - pos - len + (pos + len - 1 - p) = 24 - p - 1 := by omega
  have inside : pos + len - 1 - p < len := by omega
  simp only [testBit_fld, inside, place, decide_true, Bool.true_and] at bit
  refine Nat.eq_of_testBit_eq fun i => ?_
  rw [testBit_fld, testBit_fld]
  by_cases hi : i < 1
  · obtain rfl : i = 0 := by omega
    rw [Nat.add_zero, bit]
  · rw [decide_eq_false hi, Bool.false_and, Bool.false_and]

/-- The fields that are read hold what the argument holds there: the head bit and the sign are split off and put back. -/
theorem readShape_argFields (sh : Shape) (o : BitVec 6) (e : Bool) (a : Arg) :
    (readShape sh o e a).argFields = sh.fields.map (fun f => (f.1, f.2, fld a f.1 f.2)) := by
  have nibble (pos : Nat) : (16 * e.toNat + fld a pos 4) % 16 = fld a pos 4 := by
    rw [Nat.mul_add_mod]; exact Nat.mod_eq_of_lt (fld_lt a pos 4)
  have pattern := tc20_sext20 _ (fld_lt a 4 20)
  cases sh <;> simp [readShape, DecodedInstr.argFields, Shape.fields, nibble, pattern]

/-- The head bit that is read is `EXT`, for the shapes that own it (30 R97). -/
theorem readShape_headBit {sh : Shape} (o : BitVec 6) (e : Bool) (a : Arg) (owned : sh.hasHeadBit = false → e = false) :
    (readShape sh o e a).headBit = e := by
  have high (pos : Nat) : decide (16 ≤ 16 * e.toNat + fld a pos 4) = e := by
    have nibble := fld_lt a pos 4
    cases e with
    | false => simp; omega
    | true => simp
  cases sh with
  | noarg => exact (owned rfl).symm
  | triple => exact high 10
  | double => exact high 10
  | single => exact high 10
  | ldc => exact high 0
  | move => exact high 0
  | jump => exact high 0

/-- The opcode that is read: the first field for a directive shape, `OPC` for a base shape (30 R75). -/
theorem readShape_opcode (sh : Shape) (o : BitVec 6) (e : Bool) (a : Arg) :
    (readShape sh o e a).opcode = if sh.space = .directive then fld a 0 10 else o.toNat := by
  cases sh <;> rfl

/-- The argument that is read is written back where its shape has fields, so all of it is when the rest is clear. -/
theorem readShape_argBits {sh : Shape} (o : BitVec 6) (e : Bool) {a : Arg}
    (clear : ∀ p, p < 24 → (∀ f ∈ sh.fields, ¬(f.1 ≤ p ∧ p < f.1 + f.2)) → fld a p 1 = 0) :
    (readShape sh o e a).argBits = a := by
  have valid := readShape_valid sh o e a
  have fields := readShape_argFields sh o e a
  refine arg_ext _ _ fun p hp => ?_
  by_cases owned : ∃ f ∈ sh.fields, f.1 ≤ p ∧ p < f.1 + f.2
  · obtain ⟨f, mem, lower, upper⟩ := owned
    have written : (f.1, f.2, fld a f.1 f.2) ∈ (readShape sh o e a).argFields := by
      rw [fields]; exact List.mem_map_of_mem mem
    obtain ⟨window, -⟩ := DecodedInstr.argFields_fit valid _ written
    exact fld_one_eq_of_fld_eq window (DecodedInstr.fld_argBits valid written) lower upper
  · have unowned : ∀ f ∈ sh.fields, ¬(f.1 ≤ p ∧ p < f.1 + f.2) := fun f mem inside => owned ⟨f, mem, inside⟩
    rw [clear p hp unowned, DecodedInstr.argBits, fld_writeFields_of_disjoint hp _ _ (DecodedInstr.argFields_fit valid), fld_zero]
    rw [fields, List.forall_mem_map]
    intro f mem
    have apart := unowned f mem
    change f.1 + f.2 ≤ p ∨ p + 1 ≤ f.1
    omega

section
variable {C : Codec}

theorem word_readShape_of_canonical (hL : C.layout.Lawful) {sh : Shape} {w : IWord} (canon : canonical C sh w = true) :
    (readShape sh (C.layout.opc w) (C.layout.ext w) (C.layout.arg w)).word C = w := by
  obtain ⟨reserved, ext, clear, escape⟩ := (canonical_iff sh w).1 canon
  have opc : (readShape sh (C.layout.opc w) (C.layout.ext w) (C.layout.arg w)).opcBits C = C.layout.opc w := by
    rw [DecodedInstr.opcBits, readShape_shape, readShape_opcode]
    cases space : sh.space with
    | directive => exact (escape space).symm
    | base => exact BitVec.ofNat_toNat .. ▸ BitVec.setWidth_eq _
  rw [DecodedInstr.word, opc, readShape_headBit _ _ _ ext, readShape_argBits _ _ clear, ← reserved, hL.build_views]

/-! ### The keys of the table and of a word (43 R191, 30 R75) -/

/-- Invariants 4 to 6 of a well-formed table: the opcode of a command lies in its space, and the space is that of its shape. -/
theorem Codec.command_of_wf (wf : C.wf = true) {c : Command} (mem : c ∈ C.cmdTable) :
    c.space = c.shape.space ∧ (c.space = .base → c.opcode < 64 ∧ c.opcode ≠ C.opcDirective.toNat) := by
  simp only [Codec.wf, Bool.and_eq_true, List.all_eq_true, decide_eq_true_eq] at wf
  obtain ⟨-, commands⟩ := wf
  obtain ⟨⟨inSpace, space⟩, -⟩ := commands c mem
  refine ⟨space, fun base => ?_⟩
  rw [base] at inSpace
  simpa using inSpace

/-- The key of the word of a valid decoded instruction, provided that a base opcode is not the escape. -/
theorem wordKey_word (hL : C.layout.Lawful) {d : DecodedInstr} (valid : d.valid = true)
    (notEscape : d.shape.space = .base → d.opcode ≠ C.opcDirective.toNat) : wordKey C (d.word C) = (d.opcode, d.shape.space) := by
  have opcode := readShape_opcode d.shape (d.opcBits C) d.headBit d.argBits
  rw [readShape_views valid] at opcode
  rw [wordKey, DecodedInstr.word, hL.opc_build, hL.arg_build]
  cases space : d.shape.space with
  | directive =>
    rw [if_pos space] at opcode
    rw [DecodedInstr.opcBits, space, if_pos rfl, opcode]
  | base =>
    rw [if_neg (by rw [space]; exact Space.noConfusion)] at opcode
    rw [if_neg (fun escape => notEscape space (by rw [opcode, escape])), opcode]

/-- The opcode that is read is that of the key, for a shape of the key's space. -/
theorem readShape_opcode_of_key {w : IWord} {sh : Shape} {o : Nat} (key : wordKey C w = (o, sh.space)) :
    (readShape sh (C.layout.opc w) (C.layout.ext w) (C.layout.arg w)).opcode = o := by
  rw [readShape_opcode]
  unfold wordKey at key
  split at key
  · obtain ⟨opcode, space⟩ := Prod.mk.inj key
    rw [if_pos space.symm, opcode]
  · obtain ⟨opcode, space⟩ := Prod.mk.inj key
    rw [if_neg (by rw [← space]; exact Space.noConfusion), opcode]

/-! ### `DECODE` (43 R200) -/

theorem decodeWord_of_command (wf : C.wf = true) {w : IWord} {i : Nat} {c : Command} (atI : C.cmdTable[i]? = some c)
    (key : wordKey C w = (c.opcode, c.space)) :
    decodeWord C w = .ok ⟨i, c.shape, readShape c.shape (C.layout.opc w) (C.layout.ext w) (C.layout.arg w)⟩ := by
  simp only [decodeWord, key, lookupOpcode_of_command wf atI, atI, decodeShape_eq_readShape, bind, Except.bind]

theorem decodeWord_of_no_command {w : IWord}
    (absent : ∀ c ∈ C.cmdTable, ¬(c.opcode = (wordKey C w).1 ∧ c.space = (wordKey C w).2)) :
    decodeWord C w = .error (.unknownOpcode (wordKey C w).1 (wordKey C w).2) := by
  simp only [decodeWord, lookupOpcode_of_no_command absent, bind, Except.bind]

/-- A word that decodes has the key of a command of the table, or does not decode for want of one. -/
theorem decodeWord_cases (wf : C.wf = true) (w : IWord) :
    (∃ i c, C.cmdTable[i]? = some c ∧ wordKey C w = (c.opcode, c.space)
        ∧ decodeWord C w = .ok ⟨i, c.shape, readShape c.shape (C.layout.opc w) (C.layout.ext w) (C.layout.arg w)⟩)
      ∨ ((∀ c ∈ C.cmdTable, wordKey C w ≠ (c.opcode, c.space))
        ∧ decodeWord C w = .error (.unknownOpcode (wordKey C w).1 (wordKey C w).2)) := by
  by_cases present : ∃ c ∈ C.cmdTable, wordKey C w = (c.opcode, c.space)
  · obtain ⟨c, mem, key⟩ := present
    obtain ⟨i, atI⟩ := List.mem_iff_getElem?.1 mem
    exact .inl ⟨i, c, atI, key, decodeWord_of_command wf atI key⟩
  · refine .inr ⟨fun c mem key => present ⟨c, mem, key⟩, decodeWord_of_no_command ?_⟩
    rintro c mem ⟨opcode, space⟩
    exact present ⟨c, mem, by rw [opcode, space]⟩

/-- `DECODE` sees a word through its opcode bits, `EXT` and the argument. -/
theorem decodeWord_congr {w w' : IWord} (opc : C.layout.opc w' = C.layout.opc w) (ext : C.layout.ext w' = C.layout.ext w)
    (arg : C.layout.arg w' = C.layout.arg w) : decodeWord C w' = decodeWord C w := by
  simp only [decodeWord, wordKey, decodeShape_eq_readShape, opc, ext, arg]

/-! ### `ENCODE` (43 R201) -/

theorem encodeWord_of_command (wf : C.wf = true) {d : DecodedInstr} {i : Nat} {c : Command} (atI : C.cmdTable[i]? = some c)
    (opcode : c.opcode = d.opcode) (space : c.space = d.shape.space) :
    encodeWord C d = if c.shape = d.shape then encodeShape C d else .error (.shapeMismatch d.opcode d.shape c.shape) := by
  simp only [encodeWord, ← opcode, ← space, lookupOpcode_of_command wf atI, atI, bind, Except.bind]

/-- A command of the shape of a decoded instruction has its space, so the encoder of the shape decides. -/
theorem encodeWord_of_shape (wf : C.wf = true) {d : DecodedInstr} {i : Nat} {c : Command} (atI : C.cmdTable[i]? = some c)
    (opcode : c.opcode = d.opcode) (shape : c.shape = d.shape) : encodeWord C d = encodeShape C d := by
  obtain ⟨space, -⟩ := C.command_of_wf wf (List.mem_of_getElem? atI)
  rw [encodeWord_of_command wf atI opcode (shape ▸ space), if_pos shape]

theorem encodeWord_of_valid (hL : C.layout.Lawful) (wf : C.wf = true) {d : DecodedInstr} (valid : d.valid = true) {i : Nat}
    {c : Command} (atI : C.cmdTable[i]? = some c) (opcode : c.opcode = d.opcode) (shape : c.shape = d.shape) :
    encodeWord C d = .ok (d.word C) := by
  rw [encodeWord_of_shape wf atI opcode shape, encodeShape_of_valid hL valid]

/-- The word of a valid decoded instruction decodes to the command with its opcode and shape. -/
theorem decodeWord_word (hL : C.layout.Lawful) (wf : C.wf = true) {d : DecodedInstr} (valid : d.valid = true) {i : Nat}
    {c : Command} (atI : C.cmdTable[i]? = some c) (opcode : c.opcode = d.opcode) (shape : c.shape = d.shape) :
    decodeWord C (d.word C) = .ok ⟨i, c.shape, d⟩ := by
  obtain ⟨space, base⟩ := C.command_of_wf wf (List.mem_of_getElem? atI)
  rw [shape] at space
  have key : wordKey C (d.word C) = (c.opcode, c.space) := by
    rw [opcode, space]
    refine wordKey_word hL valid fun isBase => ?_
    obtain ⟨-, notEscape⟩ := base (space.trans isBase)
    exact opcode ▸ notEscape
  rw [decodeWord_of_command wf atI key, shape, DecodedInstr.word, hL.opc_build, hL.ext_build, hL.arg_build, readShape_views valid]

end

/-! ### The obligations -/

/-- Settles O10: the word of a decoded instruction decodes to it, and what is read in a word is a valid instruction of the command that
was found, whose word is the given one exactly when that is canonical. -/
theorem multiplexersRoundTrip : Obligations.MultiplexersRoundTrip := by
  intro C hL wf
  refine ⟨fun d i c valid atI opcode shape =>
    ⟨_, encodeWord_of_valid hL wf valid atI opcode shape, decodeWord_word hL wf valid atI opcode shape⟩, fun w r decoded => ?_⟩
  obtain ⟨i, c, atI, key, answer⟩ | ⟨-, answer⟩ := decodeWord_cases wf w
  · obtain rfl := Except.ok.inj (answer.symm.trans decoded)
    have valid := readShape_valid c.shape (C.layout.opc w) (C.layout.ext w) (C.layout.arg w)
    have shape := readShape_shape c.shape (C.layout.opc w) (C.layout.ext w) (C.layout.arg w)
    obtain ⟨space, -⟩ := C.command_of_wf wf (List.mem_of_getElem? atI)
    rw [space] at key
    have opcode := (readShape_opcode_of_key key).symm
    refine ⟨_, encodeWord_of_valid hL wf valid atI opcode shape.symm, decodeWord_word hL wf valid atI opcode shape.symm,
      fun same => ?_, word_readShape_of_canonical hL⟩
    have canon := canonical_word hL valid
    rwa [same, shape] at canon
  · cases answer.symm.trans decoded

/-- Settles O11: the lookup fails first; then the command that is found decides by its shape; then the encoder by the fields. -/
theorem encodeChecksInOrder : Obligations.EncodeChecksInOrder := by
  intro C d wf
  refine ⟨fun absent => ?_, fun c mem opcode space shape => ?_, fun c mem opcode shape invalid => ?_⟩
  · rw [encodeWord, lookupOpcode_of_no_command absent]
    rfl
  · obtain ⟨i, atI⟩ := List.mem_iff_getElem?.1 mem
    rw [encodeWord_of_command wf atI opcode space, if_neg shape]
  · obtain ⟨i, atI⟩ := List.mem_iff_getElem?.1 mem
    rw [encodeWord_of_shape wf atI opcode shape]
    exact encodersRefuseInvalidFields C d invalid

/-- Settles O12: the two words have the same views but for the reserved bit. -/
theorem decodeIgnoresTheReservedBit : Obligations.DecodeIgnoresTheReservedBit := by
  intro C o e r r' a hL
  refine decodeWord_congr ?_ ?_ ?_
  · rw [hL.opc_build, hL.opc_build]
  · rw [hL.ext_build, hL.ext_build]
  · rw [hL.arg_build, hL.arg_build]

end Sys2Proof

/-! PROOFS. The machine's decoder and encoder at the reference table: the row of an instruction, the operands a handler binds, the round
trip of every instruction, and the words that decode (30 R91 to R94, 43 R192; obligations O13, O14, O15). -/

namespace Sys2Proof

/-! ### The rows of the reference table (30 R92) -/

/-- A handler has one row. -/
theorem opcodeOf_refCodec {c : Command} (mem : c ∈ refTable) : opcodeOf refCodec c.handler = some c.opcode := by
  have row : ∀ c ∈ refTable, refTable.find? (fun d => decide (d.handler = c.handler)) = some c := by decide
  rw [opcodeOf]
  exact congrArg (Option.map _) (row c mem)

theorem opcode_lt_of_mem_refTable : ∀ c ∈ refTable, c.opcode < 64 := by decide

/-- What is shown of the operands of each instruction, for all of them. -/
theorem operandsBind (i : Instr) : Laws.OperandsBind.Statement i := by
  cases i with
  | mov a b => exact Laws.OperandsBind.mov a b
  | ldc a z => exact Laws.OperandsBind.ldc a z
  | jmp c z => exact Laws.OperandsBind.jmp c z
  | call c z => exact Laws.OperandsBind.call c z
  | sqrt a b => exact Laws.OperandsBind.sqrt a b
  | not a b => exact Laws.OperandsBind.not a b
  | add a b c => exact Laws.OperandsBind.add a b c
  | sub a b c => exact Laws.OperandsBind.sub a b c
  | mul a b c => exact Laws.OperandsBind.mul a b c
  | div a b c => exact Laws.OperandsBind.div a b c
  | mod a b c => exact Laws.OperandsBind.mod a b c
  | shl a b c => exact Laws.OperandsBind.shl a b c
  | shr a b c => exact Laws.OperandsBind.shr a b c
  | or a b c => exact Laws.OperandsBind.or a b c
  | xor a b c => exact Laws.OperandsBind.xor a b c
  | and a b c => exact Laws.OperandsBind.and a b c
  | cmp a b => exact Laws.OperandsBind.cmp a b
  | ret => exact Laws.OperandsBind.ret
  | pushr a => exact Laws.OperandsBind.pushr a
  | popr a => exact Laws.OperandsBind.popr a
  | ldm a b => exact Laws.OperandsBind.ldm a b
  | stm a b => exact Laws.OperandsBind.stm a b
  | input a => exact Laws.OperandsBind.input a
  | print a => exact Laws.OperandsBind.print a
  | scrhw a b => exact Laws.OperandsBind.scrhw a b
  | draw a => exact Laws.OperandsBind.draw a
  | dump => exact Laws.OperandsBind.dump
  | halt => exact Laws.OperandsBind.halt

/-- The row of a well-formed instruction, its decoded instruction under that row, and its word: `ENCODE` gives the word and `DECODE`
finds the row again. -/
theorem exists_row_of_wellFormed {i : Instr} (wellFormed : i.wellFormed = true) :
    ∃ k c, refTable[k]? = some c ∧ c.handler = i.handler ∧ c.shape = (i.decoded c.opcode).shape
      ∧ encode i = encodeWord refCodec (i.decoded c.opcode)
      ∧ encodeWord refCodec (i.decoded c.opcode) = .ok ((i.decoded c.opcode).word refCodec)
      ∧ decodeWord refCodec ((i.decoded c.opcode).word refCodec) = .ok ⟨k, c.shape, i.decoded c.opcode⟩ := by
  obtain ⟨binds, validity, row⟩ := operandsBind i
  obtain ⟨c, mem, handler, shape⟩ := row 0
  obtain ⟨k, atK⟩ := List.mem_iff_getElem?.1 mem
  have shape' : c.shape = (i.decoded c.opcode).shape := by rw [shape]; cases i <;> rfl
  have valid : (i.decoded c.opcode).valid = true := (validity _ (opcode_lt_of_mem_refTable c mem)).trans wellFormed
  obtain ⟨-, opcode⟩ := binds c.opcode
  refine ⟨k, c, atK, handler, shape', ?_, encodeWord_of_valid refLayout_lawful refCodec_wf valid atK opcode.symm shape',
    decodeWord_word refLayout_lawful refCodec_wf valid atK opcode.symm shape'⟩
  rw [encode, encodeWith, ← handler, opcodeOf_refCodec mem]

/-! ### The operands a handler binds (43 R192) -/

theorem asReg_of_lt {n : Nat} (h : n < 32) : asReg n = .ok ⟨n, h⟩ := dif_pos h

section
variable {d : DecodedInstr}

theorem asTriple_of_shape (shape : d.shape = .triple) (valid : d.valid = true) (f : Reg → Reg → Reg → Instr) :
    ∃ i, asTriple d f = .ok i := by
  cases d with
  | triple o rd rl rr =>
    obtain ⟨-, hd, hl, hr⟩ := DecodedInstr.valid_triple.1 valid
    exact ⟨_, by rw [asTriple, asReg_of_lt hd, asReg_of_lt hl, asReg_of_lt hr]; rfl⟩
  | _ => cases shape

theorem asDouble_of_shape (shape : d.shape = .double) (valid : d.valid = true) (f : Reg → Reg → Instr) :
    ∃ i, asDouble d f = .ok i := by
  cases d with
  | double o rd rn =>
    obtain ⟨-, hd, hn⟩ := DecodedInstr.valid_double.1 valid
    exact ⟨_, by rw [asDouble, asReg_of_lt hd, asReg_of_lt hn]; rfl⟩
  | _ => cases shape

theorem asSingle_of_shape (shape : d.shape = .single) (valid : d.valid = true) (f : Reg → Instr) :
    ∃ i, asSingle d f = .ok i := by
  cases d with
  | single o rd =>
    obtain ⟨-, hd⟩ := DecodedInstr.valid_single.1 valid
    exact ⟨_, by rw [asSingle, asReg_of_lt hd]; rfl⟩
  | _ => cases shape

theorem asNoarg_of_shape (shape : d.shape = .noarg) (i : Instr) : asNoarg d i = .ok i := by
  cases d with
  | noarg o => rfl
  | _ => cases shape

theorem asLdc_of_shape (shape : d.shape = .ldc) (valid : d.valid = true) (f : Reg → Int → Instr) : ∃ i, asLdc d f = .ok i := by
  cases d with
  | ldc o rd imm =>
    obtain ⟨-, hd, -⟩ := DecodedInstr.valid_ldc.1 valid
    exact ⟨_, by rw [asLdc, asReg_of_lt hd]; rfl⟩
  | _ => cases shape

theorem asMove_of_shape (shape : d.shape = .move) (valid : d.valid = true) (f : Reg → Reg → Instr) : ∃ i, asMove d f = .ok i := by
  cases d with
  | move o rd rn =>
    obtain ⟨-, hd, hn⟩ := DecodedInstr.valid_move.1 valid
    exact ⟨_, by rw [asMove, asReg_of_lt hd, asReg_of_lt hn]; rfl⟩
  | _ => cases shape

theorem asJump_of_shape (shape : d.shape = .jump) (valid : d.valid = true) (f : Fin 32 → Int → Instr) : ∃ i, asJump d f = .ok i := by
  cases d with
  | jump o cond off =>
    obtain ⟨-, hc, -⟩ := DecodedInstr.valid_jump.1 valid
    exact ⟨_, by rw [asJump, asReg_of_lt hc]; rfl⟩
  | _ => cases shape

/-- The shape of the decoded instructions a handler takes. -/
def Handler.shape : Handler → Shape
  | .mov => .move
  | .ldc => .ldc
  | .jmp | .call => .jump
  | .sqrt | .not | .cmp | .ldm | .stm | .scrhw => .double
  | .add | .sub | .mul | .div | .mod | .shl | .shr | .or | .xor | .and => .triple
  | .ret | .dump | .halt => .noarg
  | .pushr | .popr | .input | .print | .draw => .single

/-- A handler takes every valid decoded instruction of its shape. -/
theorem bindHandler_of_shape {h : Handler} (shape : d.shape = h.shape) (valid : d.valid = true) :
    ∃ i, bindHandler h d = .ok i := by
  cases h with
  | mov => exact asMove_of_shape shape valid _
  | ldc => exact asLdc_of_shape shape valid _
  | jmp | call => exact asJump_of_shape shape valid _
  | sqrt | not | cmp | ldm | stm | scrhw => exact asDouble_of_shape shape valid _
  | add | sub | mul | div | mod | shl | shr | or | xor | and => exact asTriple_of_shape shape valid _
  | ret | dump | halt => exact ⟨_, asNoarg_of_shape shape _⟩
  | pushr | popr | input | print | draw => exact asSingle_of_shape shape valid _

end

/-- Every row of the reference table binds a handler to a command of its shape. -/
theorem shape_of_mem_refTable : ∀ c ∈ refTable, c.shape = c.handler.shape := by decide

/-! ### The words that decode (30 R93, R94) -/

/-- The bits of the reference layout as numbers: `OPC` is the top six, the directive opcode the ten from bit 14. -/
theorem wordKey_refCodec (w : IWord) : wordKey refCodec w
    = if w.toNat / 2 ^ 26 = 0 then (w.toNat / 2 ^ 14 % 2 ^ 10, .directive) else (w.toNat / 2 ^ 26, .base) := by
  have word := w.isLt
  have opc : (refLayout.opc w).toNat = w.toNat / 2 ^ 26 := by
    rw [refLayout, BitVec.extractLsb'_toNat, Nat.shiftRight_eq_div_pow]
    omega
  have directive : fld (refLayout.arg w) 0 10 = w.toNat / 2 ^ 14 % 2 ^ 10 := by
    rw [fld, refLayout, BitVec.extractLsb'_toNat, Nat.shiftRight_eq_div_pow]
    omega
  have escape : refLayout.opc w = 0 ↔ w.toNat / 2 ^ 26 = 0 := by
    rw [← opc, ← BitVec.toNat_inj]; rfl
  simp only [wordKey, refCodec, escape, opc, directive]

/-- The opcode bits of a word are those of a row exactly when the row has the key of the word: no base opcode of the table is the
escape 0. -/
theorem wordKey_refCodec_eq_iff {c : Command} (mem : c ∈ refTable) (w : IWord) :
    wordKey refCodec w = (c.opcode, c.space) ↔
      match c.space with
      | .base => w.toNat / 2 ^ 26 = c.opcode
      | .directive => w.toNat / 2 ^ 26 = 0 ∧ w.toNat / 2 ^ 14 % 2 ^ 10 = c.opcode := by
  have notEscape : ∀ c ∈ refTable, c.space = .base → c.opcode ≠ 0 := by decide
  rw [wordKey_refCodec]
  generalize w.toNat / 2 ^ 26 = opc, w.toNat / 2 ^ 14 % 2 ^ 10 = directive
  cases space : c.space with
  | base =>
    have nonzero := notEscape c mem space
    by_cases escape : opc = 0
    · simp [escape, nonzero.symm]
    · simp [escape]
  | directive => by_cases escape : opc = 0 <;> simp [escape]

/-! ### The obligations -/

/-- Settles O14: the row of the instruction is found again, and its handler binds the operands back. -/
theorem instructionDecodeEncodeAgree : Obligations.InstructionDecodeEncodeAgree := by
  intro i wellFormed
  obtain ⟨k, c, atK, handler, -, encoder, encoded, decoded⟩ := exists_row_of_wellFormed wellFormed
  obtain ⟨binds, -, -⟩ := operandsBind i
  obtain ⟨bound, -⟩ := binds c.opcode
  refine ⟨_, encoder.trans encoded, ?_⟩
  simp only [decode, decodeWith, decoded, bind, Except.bind, show refCodec.cmdTable[k]? = some c from atK, handler, bound]

/-- Settles O13: a word decodes when a row has its key, since the handler of the row takes what is read; else the key is unknown. -/
theorem decodeAcceptsExactlyTheTable : Obligations.DecodeAcceptsExactlyTheTable := by
  intro w
  obtain ⟨k, c, atK, key, answer⟩ | ⟨absent, answer⟩ := decodeWord_cases refCodec_wf w
  · have mem : c ∈ refTable := List.mem_of_getElem? atK
    obtain ⟨i, bound⟩ := bindHandler_of_shape ((readShape_shape ..).trans (shape_of_mem_refTable c mem))
      (readShape_valid c.shape (refLayout.opc w) (refLayout.ext w) (refLayout.arg w))
    have decoded : decode w = .ok i := by
      simp only [decode, decodeWith, answer, bind, Except.bind, atK]
      exact bound
    refine ⟨⟨fun _ => ⟨c, mem, (wordKey_refCodec_eq_iff mem w).1 key⟩, fun _ => ⟨i, decoded⟩⟩, fun f failed => ?_⟩
    cases decoded.symm.trans failed
  · have failed : decode w = .error (.unknownOpcode (wordKey refCodec w).1 (wordKey refCodec w).2) := by
      simp only [decode, decodeWith, answer, bind, Except.bind]
    refine ⟨⟨?_, ?_⟩, fun f failed' => ?_⟩
    · rintro ⟨i, decoded⟩
      cases failed.symm.trans decoded
    · rintro ⟨c, mem, row⟩
      exact absurd ((wordKey_refCodec_eq_iff mem w).2 row) (absent c mem)
    · obtain rfl := Except.error.inj (failed.symm.trans failed')
      rfl

/-- Settles O15: each word is closed, and the decoder computes. -/
theorem writtenOutWordsDecode : Obligations.WrittenOutWordsDecode :=
  ⟨by decide, by decide, by decide, by decide, by decide, by decide, by decide⟩

end Sys2Proof

/-! PROOFS. Arithmetic, shifts and compare: the state each instruction ends in, and what its result register or the flags hold (45 sections
2 to 5, 46 R313; obligations O30, O31, O33 to O37, O39, O40). -/

namespace Sys2Proof.Machine

/-! ### The state each instruction ends in -/

@[simp] theorem exec_not (rd rn : Reg) (s : State) : exec (.not rd rn) s = .next (s.setReg rd (~~~s.getReg rn)) := rfl

@[simp] theorem exec_add (rd rl rr : Reg) (s : State) :
    exec (.add rd rl rr) s = .next (s.setReg rd (addWord (s.getReg rl) (s.getReg rr))) := rfl

@[simp] theorem exec_sub (rd rl rr : Reg) (s : State) :
    exec (.sub rd rl rr) s = .next (s.setReg rd (subWord (s.getReg rl) (s.getReg rr))) := rfl

@[simp] theorem exec_mul (rd rl rr : Reg) (s : State) :
    exec (.mul rd rl rr) s = .next (s.setReg rd (mulWord (s.getReg rl) (s.getReg rr))) := rfl

theorem exec_div (rd rl rr : Reg) (s : State) : exec (.div rd rl rr) s = s.complete (s.divide divWord rd rl rr) := rfl

theorem exec_mod (rd rl rr : Reg) (s : State) : exec (.mod rd rl rr) s = s.complete (s.divide modWord rd rl rr) := rfl

theorem exec_shl (rd rl rr : Reg) (s : State) : exec (.shl rd rl rr) s = .next (s.shift shlWord rd rl rr) := rfl

theorem exec_shr (rd rl rr : Reg) (s : State) : exec (.shr rd rl rr) s = .next (s.shift shrWord rd rl rr) := rfl

@[simp] theorem exec_cmp (rd rn : Reg) (s : State) :
    exec (.cmp rd rn) s = .next { s with flags := compareFlags (s.getReg rd) (s.getReg rn) } := rfl

theorem exec_sqrt_of_nonneg {rn : Reg} {s : State} (nonneg : 0 ≤ (s.getReg rn).toInt) (rd : Reg) :
    exec (.sqrt rd rn) s = .next (s.setReg rd (BitVec.ofNat 64 (isqrt (s.getReg rn).toNat))) := by
  rw [exec_sqrt, execSqrt, if_neg (Int.not_lt.2 nonneg)]
  rfl

/-- The complement of a word as a signed number. -/
theorem toInt_not_eq_neg_sub_one (x : Word) : (~~~x).toInt = -x.toInt - 1 := by
  have word := x.isLt
  rw [BitVec.toInt_eq_toNat_cond, BitVec.toInt_eq_toNat_cond, BitVec.toNat_not]
  split <;> split <;> omega

/-! ### Division (45 R274, R278, R279) -/

theorem divCorner_iff (a b : Word) : divCorner a b = true ↔ a.toInt = -(2 ^ 63) ∧ b.toInt = -1 := by
  rw [divCorner, Bool.and_eq_true, decide_eq_true_iff, decide_eq_true_iff]

section
variable {s : State} {rl rr : Reg}

theorem State.divide_of_zero (zero : s.getReg rr = 0) (f : Word → Word → Word) (rd : Reg) :
    s.divide f rd rl rr = .error .divisionByZero := if_pos zero

theorem State.divide_of_corner (corner : (s.getReg rl).toInt = -(2 ^ 63) ∧ (s.getReg rr).toInt = -1) (f : Word → Word → Word)
    (rd : Reg) : s.divide f rd rl rr = .ok (s.setFree rd) := by
  have nonzero : s.getReg rr ≠ 0 := fun zero => by
    obtain ⟨-, divisor⟩ := corner
    rw [zero] at divisor
    cases divisor
  rw [State.divide, if_neg nonzero, if_pos ((divCorner_iff _ _).2 corner)]

theorem State.divide_of_regular (nonzero : s.getReg rr ≠ 0)
    (regular : ¬((s.getReg rl).toInt = -(2 ^ 63) ∧ (s.getReg rr).toInt = -1)) (f : Word → Word → Word) (rd : Reg) :
    s.divide f rd rl rr = .ok (s.setReg rd (f (s.getReg rl) (s.getReg rr))) := by
  rw [State.divide, if_neg nonzero, if_neg (fun corner => regular ((divCorner_iff _ _).1 corner))]
  rfl

theorem exec_div_of_regular (nonzero : s.getReg rr ≠ 0)
    (regular : ¬((s.getReg rl).toInt = -(2 ^ 63) ∧ (s.getReg rr).toInt = -1)) (rd : Reg) :
    exec (.div rd rl rr) s = .next (s.setReg rd (divWord (s.getReg rl) (s.getReg rr))) := by
  rw [exec_div, State.divide_of_regular nonzero regular, State.complete_ok]

theorem exec_mod_of_regular (nonzero : s.getReg rr ≠ 0)
    (regular : ¬((s.getReg rl).toInt = -(2 ^ 63) ∧ (s.getReg rr).toInt = -1)) (rd : Reg) :
    exec (.mod rd rl rr) s = .next (s.setReg rd (modWord (s.getReg rl) (s.getReg rr))) := by
  rw [exec_mod, State.divide_of_regular nonzero regular, State.complete_ok]

end

/-- Away from the corner the quotient is representable, so nothing is lost in the register. -/
theorem toInt_divWord {a b : Word} (regular : ¬(a.toInt = -(2 ^ 63) ∧ b.toInt = -1)) :
    (divWord a b).toInt = a.toInt.tdiv b.toInt := by
  have operands : a ≠ BitVec.intMin 64 ∨ b ≠ -1#64 := by
    by_contra corner
    obtain ⟨rfl, rfl⟩ : a = BitVec.intMin 64 ∧ b = -1#64 := by simpa only [not_or, not_not] using corner
    exact regular (by decide)
  rw [divWord, ← BitVec.toInt_sdiv_of_ne_or_ne a b operands, BitVec.ofInt_toInt]

/-- The remainder is always representable. -/
theorem toInt_modWord (a b : Word) : (modWord a b).toInt = a.toInt.tmod b.toInt := by
  rw [modWord, Int.tdiv_mul_self, Int.sub_sub_self, ← BitVec.toInt_srem, BitVec.ofInt_toInt]

/-! ### Shifts (45 R280, R281) -/

section
variable {s : State} {rr : Reg}

theorem State.shift_of_lt (small : (s.getReg rr).toNat < 64) (f : Word → Nat → Word) (rd rl : Reg) :
    s.shift f rd rl rr = s.setReg rd (f (s.getReg rl) (s.getReg rr).toNat) := if_neg (Nat.not_le.2 small)

theorem State.shift_of_ge (large : 64 ≤ (s.getReg rr).toNat) (f : Word → Nat → Word) (rd rl : Reg) :
    s.shift f rd rl rr = s.setFree rd := if_pos large

end

theorem toNat_shlWord (v : Word) (n : Nat) : (shlWord v n).toNat = v.toNat * 2 ^ n % 2 ^ 64 := BitVec.toNat_ofNat ..

/-- A right shift leaves no more than there was. -/
theorem toNat_shrWord (v : Word) (n : Nat) : (shrWord v n).toNat = v.toNat / 2 ^ n :=
  (BitVec.toNat_ofNat ..).trans (Nat.mod_eq_of_lt (Nat.lt_of_le_of_lt (Nat.div_le_self ..) v.isLt))

/-! ### The square root (45 R272) -/

/-- The root of a number of the register is far below the sign bit. -/
theorem isqrt_le_self {n : Nat} (h : n < 2 ^ 64) : isqrt n ≤ n :=
  Nat.le_trans (Nat.le_mul_self _) (isqrt_spec n h).1

/-- The root of a source that is not negative, as the signed number its register holds. -/
theorem toInt_isqrt {x : Word} (nonneg : 0 ≤ x.toInt) : (BitVec.ofNat 64 (isqrt x.toNat)).toInt = isqrt x.toNat
    ∧ (x.toNat : Int) = x.toInt := by
  have source : 2 * x.toNat < 2 ^ 64 := by
    have word := x.isLt
    rw [BitVec.toInt_eq_toNat_cond] at nonneg
    split at nonneg <;> omega
  have root := isqrt_le_self x.isLt
  refine ⟨?_, (BitVec.toInt_eq_toNat_of_lt source).symm⟩
  rw [BitVec.toInt_eq_toNat_of_lt, BitVec.toNat_ofNat, Nat.mod_eq_of_lt (by omega)]
  rw [BitVec.toNat_ofNat, Nat.mod_eq_of_lt (by omega)]
  omega

/-! ### The obligations -/

/-- Settles O30: the complement of the word, bit by bit and as a number. -/
theorem notComplementsEveryBit : Obligations.NotComplementsEveryBit := by
  intro rd rn s
  refine ⟨_, _, exec_not rd rn s, State.setReg_regResult s rd _, fun k hk => ?_, ?_⟩
  · rw [BitVec.getLsbD_not, decide_eq_true hk, Bool.true_and]
  · exact toInt_not_eq_neg_sub_one _

/-- Settles O31: each result is the true one, cut to the register. -/
theorem addSubMulWrapTo64Bits : Obligations.AddSubMulWrapTo64Bits :=
  fun rd rl rr s =>
    ⟨⟨_, _, exec_add rd rl rr s, State.setReg_regResult s rd _, BitVec.toInt_ofInt _⟩,
      ⟨_, _, exec_sub rd rl rr s, State.setReg_regResult s rd _, BitVec.toInt_ofInt _⟩,
      ⟨_, _, exec_mul rd rl rr s, State.setReg_regResult s rd _, BitVec.toInt_ofInt _⟩⟩

/-- Settles O33: by the divisor; the remainder is what the quotient leaves. -/
theorem divModTruncateOrFault : Obligations.DivModTruncateOrFault := by
  intro rd rl rr s
  refine ⟨fun zero => ⟨⟨_, ?_, State.raise_faultedBy s _⟩, ⟨_, ?_, State.raise_faultedBy s _⟩⟩, fun nonzero regular =>
    ⟨⟨_, _, exec_div_of_regular nonzero regular rd, State.setReg_regResult s rd _, toInt_divWord regular⟩,
      ⟨_, _, exec_mod_of_regular nonzero regular rd, State.setReg_regResult s rd _, ?_⟩⟩⟩
  · rw [exec_div, State.divide_of_zero zero, State.complete_error]
  · rw [exec_mod, State.divide_of_zero zero, State.complete_error]
  · rw [toInt_modWord, Int.tdiv_mul_self, Int.sub_sub_self]

/-- Settles O34: the two registers hold the truncated quotient and its remainder, whose laws are those of the integers. -/
theorem quotientAndRemainderRecombine : Obligations.QuotientAndRemainderRecombine := by
  intro rd rl rr s nonzero regular
  refine ⟨_, _, exec_div_of_regular nonzero regular rd, exec_mod_of_regular nonzero regular rd, ?_⟩
  rw [State.getReg_setReg_same, State.getReg_setReg_same, toInt_divWord regular, toInt_modWord]
  have divisor : (s.getReg rr).toInt ≠ 0 := fun zero => nonzero (BitVec.toInt_inj.1 (zero.trans BitVec.toInt_zero.symm))
  refine ⟨Int.tdiv_mul_add_tmod .., ?_, Int.tmod_nonneg _, fun nonpos => ?_⟩
  · rw [Int.natAbs_tmod]
    exact Nat.mod_lt _ (Int.natAbs_pos.2 divisor)
  · have mirrored := Int.tmod_nonneg (s.getReg rr).toInt (Int.neg_nonneg.2 nonpos)
    rw [Int.neg_tmod] at mirrored
    exact Int.neg_nonneg.1 mirrored

/-- Settles O35: a small amount shifts the pattern. -/
theorem shiftsActOnTheUnsignedPattern : Obligations.ShiftsActOnTheUnsignedPattern := by
  intro rd rl rr s small
  refine ⟨⟨_, _, ?_, State.setReg_regResult s rd _, toNat_shlWord ..⟩, ⟨_, _, ?_, State.setReg_regResult s rd _, toNat_shrWord ..⟩⟩
  · rw [exec_shl, State.shift_of_lt small]
  · rw [exec_shr, State.shift_of_lt small]

/-- Settles O36: each unspecified case is one free register write. -/
theorem unspecifiedResultsAreFree : Obligations.UnspecifiedResultsAreFree := by
  intro rd rl rr s
  refine ⟨fun corner => ⟨⟨_, ?_, State.setFree_regFree s rd⟩, ⟨_, ?_, State.setFree_regFree s rd⟩⟩,
    fun large => ⟨⟨_, ?_, State.setFree_regFree s rd⟩, ⟨_, ?_, State.setFree_regFree s rd⟩⟩⟩
  · rw [exec_div, State.divide_of_corner corner, State.complete_ok]
  · rw [exec_mod, State.divide_of_corner corner, State.complete_ok]
  · rw [exec_shl, State.shift_of_ge large]
  · rw [exec_shr, State.shift_of_ge large]

/-- Settles O37: the root of the unsigned pattern, which is the source itself and leaves the sign bit of the result clear. -/
theorem sqrtIsTheExactFloor : Obligations.SqrtIsTheExactFloor := by
  intro rd rn s nonneg
  obtain ⟨root, source⟩ := toInt_isqrt nonneg
  obtain ⟨lower, upper⟩ := isqrt_spec (s.getReg rn).toNat (s.getReg rn).isLt
  refine ⟨_, _, exec_sqrt_of_nonneg nonneg rd, State.setReg_regResult s rd _, ?_⟩
  rw [root, ← source]
  exact ⟨Int.natCast_nonneg _, by exact_mod_cast lower, by exact_mod_cast upper⟩

/-- Settles O39: the flags are those of the comparison, and words are equal when their signed numbers are. -/
theorem cmpSetsTheFlags : Obligations.CmpSetsTheFlags := by
  intro rd rn s
  refine ⟨_, exec_cmp rd rn s, rfl, ?_, ?_, rfl⟩
  · rw [compareFlags, decide_eq_true_iff, BitVec.toInt_inj]
  · rw [compareFlags, decide_eq_true_iff]

/-- Settles O40: the formulas of the conditions over the two flags that `cmp` leaves. -/
theorem conditionsReadTheComparison : Obligations.ConditionsReadTheComparison := by
  intro rd rn s t h
  obtain ⟨t', completes, -, equal, less, -⟩ := cmpSetsTheFlags rd rn s
  obtain rfl : t' = t := Host.Outcome.next.inj (completes.symm.trans h)
  simp only [condHolds, Bool.and_eq_true, Bool.or_eq_true, Bool.not_eq_true', ← Bool.not_eq_true, equal, less, true_and, ne_eq]
  refine ⟨Int.not_lt, ?_, Int.le_iff_lt_or_eq.symm, trivial⟩
  omega

end Sys2Proof.Machine

/-! PROOFS. Control transfer: the target of a relative jump, and the state `jmp`, `call` and a `ret` after a `call` end in (46 R311 to
R318, 44 R246; obligations O41, O42, O44, O59). -/

namespace Sys2Proof.Machine

/-! ### Conditions and targets (30 R98, 46 R311, R312) -/

theorem condOfCode_code (c : Cond) : condOfCode c.code = some c := by cases c <;> rfl

theorem condOfCode_of_reserved {n : Nat} (reserved : 6 < n) : condOfCode n = none := by
  obtain ⟨k, rfl⟩ := Nat.exists_eq_add_of_le reserved
  rw [Nat.add_comm]
  rfl

section
variable {s : State}

/-- A target in bounds is a natural number, and the one asked for. -/
theorem State.relTarget_of_inBounds {off : Int} (inside : inBounds s.targetEndOk s.program.length ((s.ip : Int) + off) = true) :
    ∃ n : Nat, (n : Int) = (s.ip : Int) + off ∧ s.relTarget off = .ok n := by
  obtain ⟨nonneg, -⟩ := (inBounds_iff _ _ _).1 inside
  exact ⟨_, Int.toNat_of_nonneg nonneg, if_pos inside⟩

theorem State.relTarget_of_not_inBounds {off : Int}
    (outside : inBounds s.targetEndOk s.program.length ((s.ip : Int) + off) = false) :
    s.relTarget off = .error (.outOfBounds ((s.ip : Int) + off)) :=
  State.checkTarget_of_not_inBounds outside

/-! ### `jmp` (46 R311) -/

theorem exec_jmp (cond : Fin 32) (off : Int) (s : State) : exec (.jmp cond off) s = execJmp cond off s := rfl

theorem exec_jmp_of_reserved {cond : Fin 32} (reserved : 6 < cond.val) (off : Int) :
    exec (.jmp cond off) s = .next (s.raise (.badCondition cond.val)) := by
  rw [exec_jmp, execJmp, condOfCode_of_reserved reserved]
  rfl

/-- A condition that does not hold ends the jump before its target is computed. -/
theorem exec_jmp_of_untaken {cond : Fin 32} {c : Cond} (code : c.code = cond.val) (fails : condHolds c s.flags = false) (off : Int) :
    exec (.jmp cond off) s = .next s := by
  rw [exec_jmp, execJmp, ← code, condOfCode_code]
  exact congrArg s.complete (if_neg (by rw [fails]; exact Bool.false_ne_true))

theorem exec_jmp_of_taken {cond : Fin 32} {c : Cond} (code : c.code = cond.val) (holds : condHolds c s.flags = true) (off : Int) :
    exec (.jmp cond off) s = s.complete (do
      let t ← s.relTarget off
      .ok { s with ip := t }) := by
  rw [exec_jmp, execJmp, ← code, condOfCode_code]
  exact congrArg s.complete (if_pos holds)

/-! ### `call` (46 R316) -/

theorem exec_call (cond : Fin 32) (off : Int) (s : State) : exec (.call cond off) s = execCall cond off s := rfl

theorem State.callRoom_of_lt (room : s.callStack.length < 1024) : s.callRoom = .ok () := if_neg (Nat.not_le.2 room)

theorem State.callRoom_of_full (full : 1024 ≤ s.callStack.length) : s.callRoom = .error (.stackOverflow .call) := if_pos full

theorem exec_call_of_full (full : 1024 ≤ s.callStack.length) (cond : Fin 32) (off : Int) :
    exec (.call cond off) s = .next (s.raise (.stackOverflow .call)) := by
  rw [exec_call, execCall, State.callRoom_of_full full]
  rfl

theorem exec_call_of_room (room : s.callStack.length < 1024) (cond : Fin 32) (off : Int) :
    exec (.call cond off) s = s.complete (do
      let t ← s.relTarget off
      .ok { s with callStack := s.ip :: s.callStack, ip := t }) := by
  rw [exec_call, execCall, State.callRoom_of_lt room]
  rfl

/-- A call that leaves the machine running has pushed the index of the following instruction. -/
theorem callStack_of_exec_call {cond : Fin 32} {off : Int} {t : State} (completes : exec (.call cond off) s = .next t)
    (running : t.run = .running) : t.callStack = s.ip :: s.callStack := by
  obtain ⟨f, rfl⟩ | ⟨-, n, -, -, rfl⟩ := exec_cases _ s t completes
  · cases running
  · rfl

/-! ### Labels (44 R246) -/

/-- The offset of a label leads from the pointer, already advanced past the jump, to the label. -/
theorem State.relTarget_labelOffset {k : Nat} (ip : s.ip = k + 1) (target : Nat) :
    s.relTarget (labelOffset target k) = s.checkTarget target := by
  have index : (s.ip : Int) + labelOffset target k = target := by
    rw [labelOffset, ip]
    omega
  rw [State.relTarget, index]

theorem exec_jmp_label {k : Nat} (ip : s.ip = k + 1) (target : Nat) :
    exec (.jmp 0 (labelOffset target k)) s = s.complete (do
      let t ← s.checkTarget target
      .ok { s with ip := t }) := by
  rw [exec_jmp_of_taken (c := .always) rfl rfl, State.relTarget_labelOffset ip]

theorem exec_jmp_label_of_inBounds {k : Nat} (ip : s.ip = k + 1) {target : Nat}
    (inside : inBounds s.targetEndOk s.program.length target = true) :
    exec (.jmp 0 (labelOffset target k)) s = .next { s with ip := target } := by
  rw [exec_jmp_label ip, State.checkTarget_of_inBounds inside]
  rfl

theorem exec_jmp_label_of_not_inBounds {k : Nat} (ip : s.ip = k + 1) {target : Nat}
    (outside : inBounds s.targetEndOk s.program.length target = false) :
    exec (.jmp 0 (labelOffset target k)) s = .next (s.raise (.outOfBounds target)) := by
  rw [exec_jmp_label ip, State.checkTarget_of_not_inBounds outside]
  rfl

end

/-! ### The bound of an index, by where it lies (46 R312) -/

theorem inBounds_of_lt (endOk : Bool) {len n : Nat} (h : n < len) : inBounds endOk len n = true :=
  (inBounds_iff ..).2 ⟨Int.natCast_nonneg n, .inl (Int.ofNat_lt.2 h)⟩

/-- The buffer end itself is in bounds exactly when `TARGET_END_OK` says so. -/
theorem inBounds_end (endOk : Bool) (len : Nat) : inBounds endOk len len = endOk := by
  simp [inBounds]

theorem inBounds_of_gt (endOk : Bool) {len n : Nat} (h : len < n) : inBounds endOk len n = false := by
  rw [← Bool.not_eq_true]
  exact fun inside => Nat.not_le.2 h (inBounds_le endOk len n inside)

/-! ### The obligations -/

/-- Settles O41: by the slot, then by the condition, then by the bound. -/
theorem jmpTakenUntakenOrFaulted : Obligations.JmpTakenUntakenOrFaulted := by
  intro cond off s
  refine ⟨fun reserved => ⟨_, _, exec_jmp_of_reserved reserved off, State.raise_faultedBy s _, rfl⟩,
    fun c code => ⟨fun fails => exec_jmp_of_untaken code fails off, fun holds => ⟨fun inside => ?_, fun outside => ?_⟩⟩⟩
  · obtain ⟨n, target, answer⟩ := State.relTarget_of_inBounds inside
    refine ⟨n, target, ?_⟩
    rw [exec_jmp_of_taken code holds, answer]
    rfl
  · refine ⟨_, .outOfBounds ((s.ip : Int) + off), ?_, State.raise_faultedBy s _, rfl⟩
    rw [exec_jmp_of_taken code holds, State.relTarget_of_not_inBounds outside]
    rfl

/-- Settles O42: by the room on the stack, then by the bound. -/
theorem callPushesAndJumpsOrFaults : Obligations.CallPushesAndJumpsOrFaults := by
  intro cond off s
  refine ⟨fun full => ⟨_, _, exec_call_of_full full cond off, State.raise_faultedBy s _, rfl⟩, fun room outside => ?_,
    fun room inside => ?_⟩
  · refine ⟨_, .outOfBounds ((s.ip : Int) + off), ?_, State.raise_faultedBy s _, rfl⟩
    rw [exec_call_of_room room, State.relTarget_of_not_inBounds outside]
    rfl
  · obtain ⟨n, target, answer⟩ := State.relTarget_of_inBounds inside
    refine ⟨n, target, ?_⟩
    rw [exec_call_of_room room, answer]
    rfl

/-- Settles O44: the call left the following index on top, so the return is decided by the bound of that index. -/
theorem retResumesAfterTheCall : Obligations.RetResumesAfterTheCall := by
  intro cond off s t u _ completes running stack length
  have top : u.callStack = s.ip :: s.callStack := stack.trans (callStack_of_exec_call completes running)
  have bound : inBounds u.targetEndOk u.program.length s.ip = inBounds u.targetEndOk s.program.length s.ip := by rw [length]
  refine ⟨fun inner => ?_, fun last endOk => ?_, fun last endNotOk => ⟨_, ?_, State.raise_faultedBy u _⟩⟩
  · exact exec_ret_of_inBounds top (bound.trans (inBounds_of_lt _ inner))
  · refine exec_ret_of_inBounds top (bound.trans ?_)
    rw [last, inBounds_end, endOk]
  · refine exec_ret_of_not_inBounds top (bound.trans ?_)
    rw [last, inBounds_end, endNotOk]

/-- Settles O59: the jump checks the label's own index. -/
theorem labelOffsetReachesTheLabel : Obligations.LabelOffsetReachesTheLabel := by
  intro s target k ip
  refine ⟨fun inner => exec_jmp_label_of_inBounds ip (inBounds_of_lt _ inner), fun last endOk => ?_,
    fun last endNotOk => ⟨_, ?_, State.raise_faultedBy s _⟩, fun beyond => ⟨_, ?_, State.raise_faultedBy s _⟩⟩
  · exact exec_jmp_label_of_inBounds ip (by rw [last, inBounds_end, endOk])
  · exact exec_jmp_label_of_not_inBounds ip (by rw [last, inBounds_end, endNotOk])
  · exact exec_jmp_label_of_not_inBounds ip (inBounds_of_gt _ beyond)

end Sys2Proof.Machine

/-! PROOFS. Stack, memory and the host interface: the state each instruction ends in (46 R319 to R328; obligations O45, O47 to O55). -/

namespace Sys2Proof.Machine

/-! ### The value stack and the RAM (46 R319 to R323) -/

@[simp] theorem exec_pushr (rd : Reg) (s : State) : exec (.pushr rd) s = .next (s.pushValue (s.getReg rd)) := rfl

theorem exec_ldm (rd rn : Reg) (s : State) : exec (.ldm rd rn) s = execLdm rd rn s := rfl

theorem exec_stm (rd rn : Reg) (s : State) : exec (.stm rd rn) s = execStm rd rn s := rfl

theorem effectiveAddress_of_cell {x : Word} {a : Nat} (address : x.toInt = a) (inside : a < 1048576) :
    effectiveAddress x = .ok a := by
  obtain ⟨-, -, answer⟩ | ⟨outside, -⟩ := effectiveAddress_cases x
  · rw [answer, address, Int.toNat_natCast]
  · omega

theorem effectiveAddress_of_outside {x : Word} (outside : ¬(0 ≤ x.toInt ∧ x.toInt < 1048576)) :
    effectiveAddress x = .error (.outOfBounds x.toInt) := if_neg outside

section
variable {s : State} {rd : Reg} {a : Nat}

theorem exec_ldm_of_address (address : effectiveAddress (s.getReg rd) = .ok a) (rn : Reg) :
    exec (.ldm rd rn) s = .next (s.setReg rn (s.ram.read a)) := by
  rw [exec_ldm, execLdm, address]
  rfl

theorem exec_stm_of_address (address : effectiveAddress (s.getReg rd) = .ok a) (rn : Reg) :
    exec (.stm rd rn) s = .next (s.storeCell a (s.getReg rn)) := by
  rw [exec_stm, execStm, address]
  rfl

end

/-! ### The host interface (46 R324 to R328) -/

theorem exec_input (rd : Reg) (s : State) : exec (.input rd) s = .next (s.takeInput.2.setReg rd s.takeInput.1) := rfl

@[simp] theorem exec_print (rd : Reg) (s : State) : exec (.print rd) s = .next (s.emit [.int (s.getReg rd)]) := rfl

@[simp] theorem exec_scrhw (rd rn : Reg) (s : State) :
    exec (.scrhw rd rn) s = .next ((s.setReg rd (BitVec.ofNat 64 s.screenH)).setReg rn (BitVec.ofNat 64 s.screenW)) := rfl

@[simp] theorem exec_dump (s : State) : exec .dump s = .next (s.emit [.dump s.snapshot]) := rfl

theorem exec_draw (rd : Reg) (s : State) : exec (.draw rd) s = execDraw rd s := rfl

theorem exec_draw_of_base {rd : Reg} {s : State} {base : Nat} (region : drawBase (s.getReg rd) (s.screenH * s.screenW) = .ok base) :
    exec (.draw rd) s = .next (s.emit (drawEvents s.ram base s.screenH (s.screenH * s.screenW))) := by
  rw [exec_draw, execDraw, region]
  rfl

theorem exec_draw_of_error {rd : Reg} {s : State} {f : Failure} (failed : drawBase (s.getReg rd) (s.screenH * s.screenW) = .error f) :
    exec (.draw rd) s = .next (s.raise f) := by
  rw [exec_draw, execDraw, failed]
  rfl

/-- Without its line ends, what `draw` outputs is one event a cell, in ascending order. -/
theorem filter_drawEvents (m : Memory) (base h n : Nat) :
    (drawEvents m base h n).filter (fun e => e != .newline)
      = (List.range n).map (fun k => .cell (decide (m.read (base + k) ≠ 0))) := by
  rw [drawEvents, List.filter_flatMap, List.map_eq_flatMap]
  refine congrArg (List.flatMap · _) (funext fun k => ?_)
  by_cases lineEnd : (k + 1) % h = 0
  · rw [if_pos lineEnd]; rfl
  · rw [if_neg lineEnd]; rfl

/-! ### The obligations -/

/-- Settles O45: the value on top after the push is the one the pop takes. -/
theorem pushrPushesAndPoprGivesBack : Obligations.PushrPushesAndPoprGivesBack :=
  fun rd rn s => ⟨_, exec_pushr rn s, rfl, _, exec_popr_of_cons rfl rd, State.setReg_regResult s rd _⟩

/-- Settles O47: the address check comes first in both. -/
theorem addressOutsideTheRamFaults : Obligations.AddressOutsideTheRamFaults := by
  intro rd rn s outside
  refine ⟨⟨_, ?_, State.raise_faultedBy s _⟩, ⟨_, ?_, State.raise_faultedBy s _⟩⟩
  · rw [exec_ldm, execLdm, effectiveAddress_of_outside outside]; rfl
  · rw [exec_stm, execStm, effectiveAddress_of_outside outside]; rfl

/-- Settles O48: a load is one register write. -/
theorem ldmLoadsTheCell : Obligations.LdmLoadsTheCell :=
  fun _ rn s _ address inside =>
    ⟨_, exec_ldm_of_address (effectiveAddress_of_cell address inside) rn, State.setReg_regResult s rn _⟩

/-- Settles O49: a store is one write of the RAM, which keeps its canonical form. -/
theorem stmStoresTheCell : Obligations.StmStoresTheCell :=
  fun _ rn _ a wf address inside =>
    ⟨_, exec_stm_of_address (effectiveAddress_of_cell address inside) rn, rfl, Memory.write_wf _ a _ inside wf,
      Memory.read_write_same _ a _ wf, fun b other => Memory.read_write_other _ a b _ wf other⟩

/-- Settles O50: the load reads the RAM that the store has written. -/
theorem loadSeesTheLatestStore : Obligations.LoadSeesTheLatestStore := by
  intro rd rn re rm s t u a b _ wf storeAt storeIn stored loadAt loadIn loaded
  rw [exec_stm_of_address (effectiveAddress_of_cell storeAt storeIn)] at stored
  obtain rfl := Host.Outcome.next.inj stored
  rw [exec_ldm_of_address (effectiveAddress_of_cell loadAt loadIn)] at loaded
  obtain rfl := Host.Outcome.next.inj loaded
  obtain ⟨sorted, -⟩ := (Memory.wf_iff s.ram).1 wf
  rw [State.getReg_setReg_same, State.storeCell_ram, Memory.read_write s.ram a b _ sorted]

/-- Settles O51: by the host's queue. -/
theorem inputTakesTheHostValue : Obligations.InputTakesTheHostValue := by
  intro rd s
  refine ⟨fun v rest queued => ⟨_, ?_, State.setReg_regResult _ rd v⟩, fun empty => ⟨_, ?_, State.setFree_regFree s rd⟩⟩
  · rw [exec_input, State.takeInput_cons s v rest queued]
  · rw [exec_input, State.takeInput_nil s empty]
    rfl

/-- Settles O52: one event is appended. -/
theorem printOutputsTheRegister : Obligations.PrintOutputsTheRegister := exec_print

/-- Settles O53: two register writes, the width second. -/
theorem scrhwWritesHeightThenWidth : Obligations.ScrhwWritesHeightThenWidth := by
  intro rd rn s
  refine ⟨_, exec_scrhw rd rn s, State.getReg_setReg_same .., fun different => ?_, fun r notRd notRn => ?_, rfl⟩
  · rw [State.getReg_setReg_other _ rn rd _ different, State.getReg_setReg_same]
  · rw [State.getReg_setReg_other _ rn r _ notRn, State.getReg_setReg_other _ rd r _ notRd]

/-- Settles O54: by the check of the region. -/
theorem drawShowsTheRegionOrFaults : Obligations.DrawShowsTheRegionOrFaults := by
  intro rd s
  obtain ⟨lower, upper, answer⟩ | ⟨outside, answer⟩ := drawBase_cases (s.getReg rd) (s.screenH * s.screenW)
  · exact ⟨fun _ => ⟨_, exec_draw_of_base answer, filter_drawEvents ..⟩, fun outside => absurd ⟨lower, upper⟩ outside⟩
  · exact ⟨fun inside => absurd inside outside, fun _ => ⟨_, _, exec_draw_of_error answer, State.raise_faultedBy s _, rfl⟩⟩

/-- Settles O55: the event holds the snapshot of the state. -/
theorem dumpOutputsASnapshot : Obligations.DumpOutputsASnapshot :=
  fun s => ⟨s.snapshot, exec_dump s, rfl, rfl, rfl, rfl⟩

end Sys2Proof.Machine

/-! PROOFS. The end of a run, construction and load (46 R330, 60 R362, R367, R368, 70 R393, R394; obligations O17, O18, O20, O21, O58). -/

namespace Sys2Proof.Machine

/-! ### The end of the buffer -/

theorem step_of_bufferEnd {s : State} (running : s.run = .running) (atEnd : s.ip = s.program.length) :
    step s = .next { s with run := .halted } := by
  obtain ⟨-, stepped⟩ | ⟨beyond, -⟩ | ⟨w, -, inside, -⟩ := step_running s running
  · exact stepped
  · omega
  · omega

/-- However a handler ends, it answers a next state. -/
theorem State.complete_answers (s : State) (r : Except Failure State) : ∃ t, s.complete r = .next t := by
  cases r with
  | ok t => exact ⟨t, rfl⟩
  | error f => exact ⟨s.raise f, rfl⟩

/-! ### Loading (20 R50, R54) -/

/-- The bytes of the word of four bytes are those bytes. -/
theorem bytesOfWord_wordOfBytes (b0 b1 b2 b3 : Byte) : bytesOfWord (wordOfBytes b0 b1 b2 b3) = [b0, b1, b2, b3] := by
  have slice (k : Nat) (b : Byte) (same : ∀ i, i < 8 → (wordOfBytes b0 b1 b2 b3).getLsbD (k + i) = b.getLsbD i) :
      (wordOfBytes b0 b1 b2 b3).extractLsb' k 8 = b := by
    refine BitVec.eq_of_getLsbD_eq fun i hi => ?_
    rw [BitVec.getLsbD_extractLsb', decide_eq_true hi, Bool.true_and, same i hi]
  rw [bytesOfWord, slice 0 b0, slice 8 b1, slice 16 b2, slice 24 b3]
  all_goals
    intro i hi
    simp only [wordOfBytes, BitVec.getLsbD_append]
    grind

/-- A file of whole words is the object of the words that are read from it. -/
theorem bytesOfWords_wordsOfBytes (bytes : List Byte) (whole : bytes.length % 4 = 0) : bytesOfWords (wordsOfBytes bytes) = bytes := by
  induction bytes using wordsOfBytes.induct with
  | case1 b0 b1 b2 b3 rest ih =>
    have wholeRest : rest.length % 4 = 0 := (Nat.add_mod_right rest.length 4).symm.trans whole
    rw [wordsOfBytes, bytesOfWords_cons, bytesOfWord_wordOfBytes, ih wholeRest]
    rfl
  | case2 short notFour =>
    match short, whole with
    | [], _ => rfl
    | b0 :: b1 :: b2 :: b3 :: rest, _ => exact (notFour b0 b1 b2 b3 rest rfl).elim

theorem State.loadBinary_of_loadWords {bytes : List Byte} {ws : List IWord} (loaded : loadWords bytes = .ok ws) (s : State) :
    s.loadBinary bytes = .ok { s with program := ws } := by
  rw [State.loadBinary, loaded]
  rfl

theorem loadWords_of_partial {bytes : List Byte} (broken : bytes.length % 4 ≠ 0) :
    loadWords bytes = .error (.prematureEOF bytes.length) := if_neg broken

/-! ### The obligations -/

/-- Settles O17: the buffer end is the first case of a running step, and a final engine has none. -/
theorem runEndsAtHaltFaultOrBufferEnd : Obligations.RunEndsAtHaltFaultOrBufferEnd :=
  ⟨fun _ => step_of_bufferEnd, fun _ t final => step_ne_next_of_final final t, rfl, fun _ => rfl⟩

/-- Settles O18: a handler computes its next state, or ends as a fault may. -/
theorem everyInstructionAnswersNext : Obligations.EveryInstructionAnswersNext := by
  intro i s
  cases i with
  | mov | ldc | not | add | sub | mul | shl | shr | or | xor | and | cmp | pushr | input | print | scrhw | dump | halt =>
    exact ⟨_, rfl⟩
  | jmp | call | sqrt | div | mod | ret | popr | ldm | stm | draw => exact s.complete_answers _

/-- Settles O20: a booted machine has the reset values but for what it is given, and an empty program ends at index 0. -/
theorem bootLeavesTheResetTable : Obligations.BootLeavesTheResetTable := by
  intro regs ram h w endOk inputs program
  refine ⟨rfl, rfl, rfl, rfl, rfl, rfl, rfl, rfl, rfl, rfl, rfl, rfl, rfl, ?_⟩
  rintro rfl
  exact step_of_bufferEnd rfl rfl

/-- Settles O21: the parts of the invariant that a boot does not take as given are those of the reset table. -/
theorem resetAndBootMeetTheInvariant : Obligations.ResetAndBootMeetTheInvariant := by
  refine ⟨by decide, fun regs ram h w endOk inputs program wf height width grid => ?_⟩
  exact ⟨wf, Nat.zero_le _, nofun, Nat.zero_le _, rfl, rfl, height, width, grid⟩

/-- Settles O58: by the length; the words of a whole file give its bytes back. -/
theorem partialWordFailsToLoad : Obligations.PartialWordFailsToLoad := by
  intro s bytes
  refine ⟨fun broken => ⟨.prematureEOF bytes.length, ?_, rfl⟩,
    fun whole => ⟨_, s.loadBinary_of_loadWords (loadWords_of_whole whole), ?_, ?_, rfl⟩⟩
  · rw [State.loadBinary, loadWords_of_partial broken]
    rfl
  · rw [← length_bytesOfWords, bytesOfWords_wordsOfBytes bytes whole]
  · exact bytesOfWords_wordsOfBytes bytes whole

end Sys2Proof.Machine

/-! PROOFS. The kinds of effect an instruction can have, the frames of all instructions, and the invariant of the machine (10 R27 to R41,
45 R285, 46 R310 to R329, 60 R369; obligations O19, O22, O23, O25, O27). -/

namespace Sys2Proof.Machine

/-! ### The kinds of effect -/

/-- What an instruction can have done to a state, by what it writes: `exec_cases` with the instructions that write alike taken
together. -/
inductive Effect (s : State) : Instr → State → Prop where
  /-- A failure: the run state alone. -/
  | fault (i : Instr) (f : Failure) : Effect s i (s.raise f)
  /-- One register. -/
  | write {i : Instr} {rd : Reg} (dest : destinations i = [rd]) (v : Word) : Effect s i (s.setReg rd v)
  /-- One register, with a free value. -/
  | free {i : Instr} {rd : Reg} (dest : destinations i = [rd]) : Effect s i (s.setFree rd)
  /-- Both registers of `scrhw`. -/
  | screen (rd rn : Reg) (h w : Word) : Effect s (.scrhw rd rn) ((s.setReg rd h).setReg rn w)
  | pop (rd : Reg) (v : Word) (rest : List Word) : Effect s (.popr rd) (State.setReg { s with valueStack := rest } rd v)
  | take (rd : Reg) (v : Word) (rest : List Word) : Effect s (.input rd) (State.setReg { s with inputs := rest } rd v)
  | push (rd : Reg) (v : Word) : Effect s (.pushr rd) (s.pushValue v)
  | store {rd rn : Reg} {a : Nat} (address : effectiveAddress (s.getReg rd) = .ok a) (v : Word) : Effect s (.stm rd rn) (s.storeCell a v)
  | compare (rd rn : Reg) : Effect s (.cmp rd rn) { s with flags := compareFlags (s.getReg rd) (s.getReg rn) }
  | untaken (cond : Fin 32) (off : Int) : Effect s (.jmp cond off) s
  | jump (cond : Fin 32) (off : Int) {n : Nat} (inside : inBounds s.targetEndOk s.program.length n = true) :
      Effect s (.jmp cond off) { s with ip := n }
  | call (cond : Fin 32) (off : Int) {n : Nat} (room : s.callStack.length < 1024)
      (inside : inBounds s.targetEndOk s.program.length n = true) :
      Effect s (.call cond off) { s with callStack := s.ip :: s.callStack, ip := n }
  | ret {n : Nat} {rest : List Nat} (stack : s.callStack = n :: rest) (inside : inBounds s.targetEndOk s.program.length n = true) :
      Effect s .ret { s with callStack := rest, ip := n }
  | print (rd : Reg) (evs : List OutEvent) : Effect s (.print rd) (s.emit evs)
  | draw (rd : Reg) (evs : List OutEvent) : Effect s (.draw rd) (s.emit evs)
  | dump (evs : List OutEvent) : Effect s .dump (s.emit evs)
  | halt : Effect s .halt { s with run := .halted }

/-- Every instruction that answers a next state has had one of these effects. -/
theorem effect_of_exec {i : Instr} {s t : State} (h : exec i s = .next t) : Effect s i t := by
  obtain ⟨f, rfl⟩ | done := exec_cases i s t h
  · exact .fault i f
  cases i with
  | mov | ldc | not | add | sub | mul | or | xor | and =>
    cases done
    exact .write rfl _
  | sqrt =>
    obtain ⟨-, rfl⟩ := done
    exact .write rfl _
  | div | mod =>
    obtain ⟨-, ⟨-, rfl⟩ | ⟨-, rfl⟩⟩ := done
    · exact .free rfl
    · exact .write rfl _
  | shl | shr =>
    obtain ⟨-, rfl⟩ | ⟨-, rfl⟩ := done
    · exact .free rfl
    · exact .write rfl _
  | ldm =>
    obtain ⟨a, -, rfl⟩ := done
    exact .write rfl _
  | stm =>
    obtain ⟨a, address, rfl⟩ := done
    exact .store address _
  | popr =>
    obtain ⟨v, rest, -, rfl⟩ := done
    exact .pop _ v rest
  | pushr =>
    cases done
    exact .push _ _
  | input =>
    obtain ⟨v, rest, -, rfl⟩ | ⟨-, rfl⟩ := done
    · exact .take _ v rest
    · exact .free rfl
  | scrhw =>
    cases done
    exact .screen _ _ _ _
  | cmp =>
    cases done
    exact .compare _ _
  | jmp =>
    obtain ⟨c, -, ⟨-, rfl⟩ | ⟨-, n, inside, -, rfl⟩⟩ := done
    · exact .untaken _ _
    · exact .jump _ _ inside
  | call =>
    obtain ⟨room, n, inside, -, rfl⟩ := done
    exact .call _ _ room inside
  | ret =>
    obtain ⟨n, rest, stack, inside, rfl⟩ := done
    exact .ret stack inside
  | print =>
    cases done
    exact .print _ _
  | draw =>
    obtain ⟨a, -, rfl⟩ := done
    exact .draw _ _
  | dump =>
    cases done
    exact .dump _
  | halt =>
    cases done
    exact .halt

/-! ### The frames, field by field (10 R27 to R41) -/

section
variable {s t : State} {i : Instr}

theorem Effect.getReg_eq (effect : Effect s i t) {r : Reg} (other : r ∉ destinations i) : t.getReg r = s.getReg r := by
  cases effect with
  | write dest v =>
    rw [dest, List.mem_singleton] at other
    exact State.getReg_setReg_other s _ r v other
  | free dest =>
    rw [dest, List.mem_singleton] at other
    exact State.getReg_setFree_other s _ r other
  | screen rd rn h w =>
    obtain ⟨notRd, notRn⟩ : r ≠ rd ∧ r ≠ rn := by simpa [destinations] using other
    rw [State.getReg_setReg_other _ rn r w notRn, State.getReg_setReg_other s rd r h notRd]
  | pop rd v rest => exact State.getReg_setReg_other _ rd r v (List.mem_singleton.not.1 other)
  | take rd v rest => exact State.getReg_setReg_other _ rd r v (List.mem_singleton.not.1 other)
  | _ => rfl

theorem Effect.ip_eq (effect : Effect s i t) (notJmp : ∀ c off, i ≠ .jmp c off) (notCall : ∀ c off, i ≠ .call c off)
    (notRet : i ≠ .ret) : t.ip = s.ip := by
  cases effect with
  | jump => exact absurd rfl (notJmp _ _)
  | call => exact absurd rfl (notCall _ _)
  | ret => exact absurd rfl notRet
  | _ => rfl

theorem Effect.flags_eq (effect : Effect s i t) (notCmp : ∀ rd rn, i ≠ .cmp rd rn) : t.flags = s.flags := by
  cases effect with
  | compare => exact absurd rfl (notCmp _ _)
  | _ => rfl

theorem Effect.valueStack_eq (effect : Effect s i t) (notPushr : ∀ rd, i ≠ .pushr rd) (notPopr : ∀ rd, i ≠ .popr rd) :
    t.valueStack = s.valueStack := by
  cases effect with
  | push => exact absurd rfl (notPushr _)
  | pop => exact absurd rfl (notPopr _)
  | _ => rfl

theorem Effect.callStack_eq (effect : Effect s i t) (notCall : ∀ c off, i ≠ .call c off) (notRet : i ≠ .ret) :
    t.callStack = s.callStack := by
  cases effect with
  | call => exact absurd rfl (notCall _ _)
  | ret => exact absurd rfl notRet
  | _ => rfl

theorem Effect.inputs_eq (effect : Effect s i t) (notInput : ∀ rd, i ≠ .input rd) : t.inputs = s.inputs := by
  cases effect with
  | take => exact absurd rfl (notInput _)
  | _ => rfl

theorem Effect.outputs_eq (effect : Effect s i t) (notPrint : ∀ rd, i ≠ .print rd) (notDraw : ∀ rd, i ≠ .draw rd)
    (notDump : i ≠ .dump) : t.outputs = s.outputs := by
  cases effect with
  | print => exact absurd rfl (notPrint _)
  | draw => exact absurd rfl (notDraw _)
  | dump => exact absurd rfl notDump
  | _ => rfl

/-- Output is only appended. -/
theorem Effect.outputs_append (effect : Effect s i t) : ∃ evs, t.outputs = s.outputs ++ evs := by
  cases effect with
  | print _ evs | draw _ evs | dump evs => exact ⟨evs, rfl⟩
  | _ => exact ⟨[], (List.append_nil _).symm⟩

theorem Effect.program_eq (effect : Effect s i t) : t.program = s.program := by cases effect <;> rfl

theorem Effect.constants_eq (effect : Effect s i t) :
    t.screenH = s.screenH ∧ t.screenW = s.screenW ∧ t.targetEndOk = s.targetEndOk := by
  cases effect <;> exact ⟨rfl, rfl, rfl⟩

theorem Effect.run_cases (effect : Effect s i t) : t.run = s.run ∨ (i = .halt ∧ t.run = .halted) ∨ ∃ f, t = s.raise f := by
  cases effect with
  | fault _ f => exact .inr (.inr ⟨f, rfl⟩)
  | halt => exact .inr (.inl ⟨rfl, rfl⟩)
  | _ => exact .inl rfl

/-- The RAM is as it was, or the cell `stm` stores to was written, which lies in the RAM. -/
theorem Effect.ram_cases (effect : Effect s i t) :
    t.ram = s.ram ∨ ∃ a v, storedCell i s = some a ∧ a < ramCells ∧ t.ram = s.ram.write a v := by
  cases effect with
  | store address v =>
    obtain ⟨inside, -⟩ := effectiveAddress_ok_lt _ _ address
    exact .inr ⟨_, v, by rw [storedCell, address], inside, rfl⟩
  | _ => exact .inl rfl

/-! ### The invariant (10 R30, R36, R38, 45 R285) -/

theorem Effect.ram_wf (effect : Effect s i t) (wf : s.ram.wf = true) : t.ram.wf = true := by
  obtain same | ⟨a, v, -, inside, written⟩ := effect.ram_cases
  · rwa [same]
  · rw [written]
    exact Memory.write_wf _ a v inside wf

/-- A word is not both equal to another and less than it. -/
theorem compareFlags_exclusive (a b : Word) : ((compareFlags a b).e && (compareFlags a b).l) = false := by
  rw [compareFlags, Bool.and_eq_false_iff, decide_eq_false_iff_not, decide_eq_false_iff_not]
  by_cases equal : a = b
  · exact .inr (equal ▸ Int.lt_irrefl _)
  · exact .inl equal

/-- Every effect keeps the invariant: beside the RAM it is in play where `ip`, the call stack or the flags are written. -/
theorem Effect.keeps_inv (effect : Effect s i t) (inv : s.Inv) : t.Inv := by
  obtain ⟨wf, ip, returns, capacity, exclusive, reserved, height, width, grid⟩ := inv
  have wf' := effect.ram_wf wf
  cases effect with
  | jump _ _ inside =>
    exact ⟨wf', inBounds_le _ _ _ inside, returns, capacity, exclusive, reserved, height, width, grid⟩
  | call _ _ room inside =>
    exact ⟨wf', inBounds_le _ _ _ inside, List.forall_mem_cons.2 ⟨ip, returns⟩, room, exclusive, reserved, height, width, grid⟩
  | ret stack inside =>
    rw [stack] at returns capacity
    obtain ⟨-, rest⟩ := List.forall_mem_cons.1 returns
    exact ⟨wf', inBounds_le _ _ _ inside, rest, Nat.le_of_succ_le capacity, exclusive, reserved, height, width, grid⟩
  | compare => exact ⟨wf', ip, returns, capacity, compareFlags_exclusive _ _, rfl, height, width, grid⟩
  | _ => exact ⟨wf', ip, returns, capacity, exclusive, reserved, height, width, grid⟩

end

/-- The pointer advanced past a word of the buffer stays inside `0 .. len` (10 R31). -/
theorem State.advance_inv {s : State} (inv : s.Inv) (inside : s.ip < s.program.length) : s.advance.Inv := by
  obtain ⟨wf, -, rest⟩ := inv
  exact ⟨wf, inside, rest⟩

/-- Every step of the engine keeps the invariant, at any configuration: the implicit halt and a word that does not decode change no part
of it but `ip`. -/
theorem engineStep_keeps_inv (C : Codec) {s t : State} (inv : s.Inv) (stepped : engineStep C s = .next t) : t.Inv := by
  by_cases running : s.run = .running
  · obtain ⟨-, answer⟩ | ⟨-, answer⟩ | ⟨w, -, inside, ⟨f, -, answer⟩ | ⟨i, -, answer⟩⟩ := engineStep_running C s running
    · obtain rfl := Host.Outcome.next.inj (answer.symm.trans stepped)
      exact inv
    · cases answer.symm.trans stepped
    · obtain rfl := Host.Outcome.next.inj (answer.symm.trans stepped)
      exact State.advance_inv inv inside
    · exact (effect_of_exec (answer.symm.trans stepped)).keeps_inv (State.advance_inv inv inside)
  · cases (engineStep_final C s running).symm.trans stepped

/-! ### The obligations -/

/-- Settles O19: a running machine that ends Faulted has taken the failure, and nothing else ends Faulted. -/
theorem faultingHandlerWritesNothing : Obligations.FaultingHandlerWritesNothing := by
  intro i s t f running h faulted
  obtain same | ⟨-, halted⟩ | ⟨g, rfl⟩ := (effect_of_exec h).run_cases
  · cases running.symm.trans (same.symm.trans faulted)
  · cases halted.symm.trans faulted
  · obtain rfl := RunState.faulted.inj faulted
    rfl

/-- Settles O22: the machine's step is the engine's at the reference codec. -/
theorem everyStepKeepsTheInvariant : Obligations.EveryStepKeepsTheInvariant :=
  fun _ _ inv => ⟨engineStep_keeps_inv refCodec inv, fun C => engineStep_keeps_inv C inv⟩

/-- Settles O23: by the effect, which names the registers it writes as destinations. -/
theorem onlyDestinationRegistersChange : Obligations.OnlyDestinationRegistersChange :=
  fun _ _ _ h _ other => (effect_of_exec h).getReg_eq other

/-- Settles O25: a cell other than the written one reads as before. -/
theorem onlyTheStoredCellChanges : Obligations.OnlyTheStoredCellChanges := by
  intro i s t wf h a other
  obtain same | ⟨b, v, stored, -, written⟩ := (effect_of_exec h).ram_cases
  · rw [same]
  · rw [written]
    exact Memory.read_write_other _ b a v wf fun same => other (same ▸ stored)

/-- Settles O27: field by field, from the one effect the instruction had. -/
theorem stackPointerHostAndScreenFrame : Obligations.StackPointerHostAndScreenFrame := by
  intro i s t h
  have effect := effect_of_exec h
  obtain ⟨height, width, endOk⟩ := effect.constants_eq
  refine ⟨effect.ip_eq, effect.valueStack_eq, effect.callStack_eq, effect.inputs_eq, effect.outputs_eq, effect.outputs_append,
    height, width, endOk, effect.run_cases.imp_right (.imp_right ?_)⟩
  rintro ⟨f, rfl⟩
  exact ⟨f, rfl⟩

end Sys2Proof.Machine

/-! PROOFS. What an instruction does not depend on: the words of the buffer, and, but for a conditional jump and `dump`, the flags (10 R33,
R37; obligations O24, O26). -/

namespace Sys2Proof.Machine

/-! ### A state under other flags and another buffer -/

/-- The state with its flags and its buffer replaced. -/
def State.overlay (s : State) (f : Flags) (p : List IWord) : State := { s with flags := f, program := p }

/-- An outcome with its next state replaced so. -/
def overlayNext (f : Flags) (p : List IWord) : Host.Outcome State Fault Refusal → Host.Outcome State Fault Refusal
  | .next t => .next (t.overlay f p)
  | .fault r => .fault r
  | .refused r => .refused r

section
variable {s : State} {f : Flags} {p : List IWord}

/-- A target is checked against the length of the buffer alone. -/
theorem State.checkTarget_overlay (length : p.length = s.program.length) (t : Int) :
    (s.overlay f p).checkTarget t = s.checkTarget t := by
  rw [State.checkTarget, State.checkTarget, ← length]
  rfl

theorem State.relTarget_overlay (length : p.length = s.program.length) (off : Int) :
    (s.overlay f p).relTarget off = s.relTarget off :=
  State.checkTarget_overlay length _

/-- A handler whose result is overlaid, or fails alike, ends in the overlaid outcome. -/
theorem State.complete_overlay {r r' : Except Failure State} (same : r' = (r.map fun t => t.overlay f p)) :
    (s.overlay f p).complete r' = overlayNext f p (s.complete r) := by
  subst same
  cases r <;> rfl

/-- Two computations that begin alike and go on alike but for the overlay. -/
theorem bind_overlay {α : Type} {x : Except Failure α} {k k' : α → Except Failure State}
    (same : ∀ a, k' a = (k a).map fun t => t.overlay f p) : (x >>= k') = (x >>= k).map fun t => t.overlay f p := by
  cases x with
  | error _ => rfl
  | ok a => exact same a

theorem State.divide_overlay (op : Word → Word → Word) (rd rl rr : Reg) :
    (s.overlay f p).divide op rd rl rr = (s.divide op rd rl rr).map fun t => t.overlay f p := by
  by_cases zero : s.getReg rr = 0
  · rw [State.divide_of_zero zero, State.divide_of_zero (s := s.overlay f p) zero]; rfl
  by_cases corner : (s.getReg rl).toInt = -(2 ^ 63) ∧ (s.getReg rr).toInt = -1
  · rw [State.divide_of_corner corner, State.divide_of_corner (s := s.overlay f p) corner]; rfl
  · rw [State.divide_of_regular zero corner, State.divide_of_regular (s := s.overlay f p) zero corner]; rfl

theorem State.shift_overlay (op : Word → Nat → Word) (rd rl rr : Reg) :
    (s.overlay f p).shift op rd rl rr = (s.shift op rd rl rr).overlay f p := by
  by_cases small : (s.getReg rr).toNat < 64
  · rw [State.shift_of_lt small, State.shift_of_lt (s := s.overlay f p) small]; rfl
  · rw [State.shift_of_ge (Nat.not_lt.1 small), State.shift_of_ge (s := s.overlay f p) (Nat.not_lt.1 small)]; rfl

/-- An instruction other than `cmp` and `dump` does the same under other flags and another buffer of the same length, provided that a
conditional jump finds its condition as before. -/
theorem exec_overlay {i : Instr} (length : p.length = s.program.length) (notCmp : ∀ rd rn, i ≠ .cmp rd rn) (notDump : i ≠ .dump)
    (condition : ∀ cond off, i = .jmp cond off → ∀ c, condOfCode cond.val = some c → condHolds c f = condHolds c s.flags) :
    exec i (s.overlay f p) = overlayNext f p (exec i s) := by
  cases i with
  | mov | ldc | not | add | sub | mul | or | xor | and | pushr | print | scrhw | halt => rfl
  | cmp => exact absurd rfl (notCmp _ _)
  | dump => exact absurd rfl notDump
  | jmp cond off =>
    refine State.complete_overlay ?_
    rw [State.relTarget_overlay length]
    cases code : condOfCode cond.val with
    | none => rfl
    | some c =>
      simp only [State.overlay, condition cond off rfl c code]
      cases condHolds c s.flags with
      | false => rfl
      | true => exact bind_overlay fun _ => rfl
  | call cond off =>
    refine State.complete_overlay ?_
    rw [State.relTarget_overlay length]
    exact bind_overlay fun _ => bind_overlay fun _ => rfl
  | ret =>
    refine State.complete_overlay (bind_overlay fun top => ?_)
    rw [State.checkTarget_overlay length]
    exact bind_overlay fun _ => rfl
  | sqrt rd rn =>
    by_cases negative : (s.getReg rn).toInt < 0
    · rw [exec_sqrt_of_neg negative, exec_sqrt_of_neg (s := s.overlay f p) negative]; rfl
    · rw [exec_sqrt_of_nonneg (Int.not_lt.1 negative), exec_sqrt_of_nonneg (s := s.overlay f p) (Int.not_lt.1 negative)]; rfl
  | div rd rl rr | mod rd rl rr => exact State.complete_overlay (State.divide_overlay ..)
  | shl rd rl rr | shr rd rl rr => exact congrArg Host.Outcome.next (State.shift_overlay ..)
  | popr rd =>
    cases stack : s.valueStack with
    | nil => rw [exec_popr_of_empty stack, exec_popr_of_empty (s := s.overlay f p) stack]; rfl
    | cons v rest => rw [exec_popr_of_cons stack, exec_popr_of_cons (s := s.overlay f p) stack]; rfl
  | input rd =>
    rw [exec_input, exec_input]
    cases queue : s.inputs with
    | nil => rw [State.takeInput_nil s queue, State.takeInput_nil (s.overlay f p) queue]; rfl
    | cons v rest => rw [State.takeInput_cons s v rest queue, State.takeInput_cons (s.overlay f p) v rest queue]; rfl
  | ldm | stm | draw => exact State.complete_overlay (bind_overlay fun _ => rfl)

end

/-! ### The obligations -/

/-- Settles O24: `cmp` computes its flags from two registers; every other instruction that is spoken of runs alike under other flags, as
condition 0 is the one that always holds. -/
theorem flagsWrittenByCmpReadByJmpAndDump : Obligations.FlagsWrittenByCmpReadByJmpAndDump := by
  refine ⟨fun i s t h => (effect_of_exec h).flags_eq, fun rd rn s t f h => ?_, fun i s t f always notDump h => ?_⟩
  · obtain rfl := Host.Outcome.next.inj ((exec_cmp rd rn s).symm.trans h)
    exact ⟨exec_cmp rd rn _, rfl, decide_eq_true_iff⟩
  · by_cases isCmp : ∃ rd rn, i = .cmp rd rn
    · obtain ⟨rd, rn, rfl⟩ := isCmp
      obtain rfl := Host.Outcome.next.inj ((exec_cmp rd rn s).symm.trans h)
      exact ⟨_, exec_cmp rd rn _, rfl⟩
    · have notCmp : ∀ rd rn, i ≠ .cmp rd rn := fun rd rn same => isCmp ⟨rd, rn, same⟩
      have runs := exec_overlay (s := s) (f := f) (p := s.program) rfl notCmp notDump fun cond off jmp c code => by
        obtain rfl := always cond off jmp
        obtain rfl : Cond.always = c := Option.some.inj code
        rfl
      rw [h] at runs
      refine ⟨_, runs, ?_⟩
      rw [State.overlay, ← (effect_of_exec h).program_eq]

/-- Settles O26: an instruction other than `cmp` leaves the flags, so overlaying the flags it finds changes the buffer alone. -/
theorem programIsNeitherWrittenNorReadAsData : Obligations.ProgramIsNeitherWrittenNorReadAsData := by
  intro i s t p h
  refine ⟨(effect_of_exec h).program_eq, fun length => ?_⟩
  by_cases isCmp : ∃ rd rn, i = .cmp rd rn
  · obtain ⟨rd, rn, rfl⟩ := isCmp
    obtain rfl := Host.Outcome.next.inj ((exec_cmp rd rn s).symm.trans h)
    exact exec_cmp rd rn _
  by_cases isDump : i = .dump
  · obtain rfl := isDump
    obtain rfl := Host.Outcome.next.inj ((exec_dump s).symm.trans h)
    exact exec_dump _
  · have notCmp : ∀ rd rn, i ≠ .cmp rd rn := fun rd rn same => isCmp ⟨rd, rn, same⟩
    have runs := exec_overlay (s := s) (f := s.flags) (p := p) length notCmp isDump fun _ _ _ _ _ => rfl
    rw [h] at runs
    refine runs.trans ?_
    rw [overlayNext, State.overlay, ← (effect_of_exec h).flags_eq notCmp]

end Sys2Proof.Machine

/-! PROOFS. The text round trip: a line of clean tokens is split into those tokens, every operand is read back from its canonical text, and
so the assembler rebuilds the words the disassembler was given (44 R231 to R250; obligation O60). -/

namespace Sys2Proof.Machine

/-! ### Lines and tokens (44 R231, R232) -/

/-- A character that neither ends a token nor begins a comment. -/
def cleanChar (c : Char) : Bool := !(isSpace c || c == ';' || c == '#')

/-- A token the tokenizer gives back: not empty, and clean throughout. -/
def cleanToken (t : Text) : Bool := !t.isEmpty && t.all cleanChar

theorem cleanToken_iff (t : Text) : cleanToken t = true ↔ t ≠ [] ∧ ∀ c ∈ t, cleanChar c = true := by
  rw [cleanToken, Bool.and_eq_true, List.all_eq_true, Bool.not_eq_true', List.isEmpty_eq_false_iff]

theorem cleanChar_iff (c : Char) : cleanChar c = true ↔ isSpace c = false ∧ (!(c == ';' || c == '#')) = true := by
  simp [cleanChar, and_assoc]

theorem mem_joinTokens {toks : List Text} {c : Char} (mem : c ∈ joinTokens toks) : c = ' ' ∨ ∃ t ∈ toks, c ∈ t := by
  induction toks using joinTokens.induct with
  | case1 => cases mem
  | case2 t => exact .inr ⟨t, List.mem_singleton_self t, mem⟩
  | case3 t rest notLast ih =>
    rw [joinTokens.eq_3 t rest notLast, List.mem_append, List.mem_cons] at mem
    obtain inFirst | rfl | inRest := mem
    · exact .inr ⟨t, List.mem_cons_self, inFirst⟩
    · exact .inl rfl
    · exact (ih inRest).imp_right fun ⟨u, later, inU⟩ => ⟨u, List.mem_cons_of_mem t later, inU⟩

/-- A line of clean tokens holds no comment. -/
theorem stripComment_joinTokens (toks : List Text) (clean : ∀ t ∈ toks, cleanToken t = true) :
    stripComment (joinTokens toks) = joinTokens toks := by
  refine List.takeWhile_eq_self_iff.2 fun c mem => ?_
  obtain rfl | ⟨t, inToks, inT⟩ := mem_joinTokens mem
  · rfl
  · obtain ⟨-, chars⟩ := (cleanToken_iff t).1 (clean t inToks)
    exact ((cleanChar_iff c).1 (chars c inT)).2

/-- Characters that are not white space are added to the current piece. -/
theorem splitSpaces_append (t rest cur : Text) (solid : ∀ c ∈ t, isSpace c = false) :
    splitSpaces (t ++ rest) cur = splitSpaces rest (t.reverse ++ cur) := by
  induction t generalizing cur with
  | nil => rfl
  | cons c t ih =>
    obtain ⟨solidHead, solidTail⟩ := List.forall_mem_cons.1 solid
    rw [List.cons_append, splitSpaces, if_neg (by rw [solidHead]; exact Bool.false_ne_true), ih (c :: cur) solidTail,
      List.reverse_cons, List.append_assoc, List.singleton_append]

/-- A clean token at the end of a line. -/
theorem splitSpaces_token_end {t : Text} (clean : cleanToken t = true) : splitSpaces t [] = [t] := by
  obtain ⟨nonempty, chars⟩ := (cleanToken_iff t).1 clean
  have piece := splitSpaces_append t [] [] fun c mem => ((cleanChar_iff c).1 (chars c mem)).1
  rw [List.append_nil, List.append_nil] at piece
  rw [piece, splitSpaces, if_neg (by simpa using nonempty), List.reverse_reverse]

/-- A clean token before a space. -/
theorem splitSpaces_token_space {t : Text} (clean : cleanToken t = true) (rest : Text) :
    splitSpaces (t ++ ' ' :: rest) [] = t :: splitSpaces rest [] := by
  obtain ⟨nonempty, chars⟩ := (cleanToken_iff t).1 clean
  have piece := splitSpaces_append t (' ' :: rest) [] fun c mem => ((cleanChar_iff c).1 (chars c mem)).1
  rw [List.append_nil] at piece
  rw [piece, splitSpaces, if_pos (show isSpace ' ' = true from rfl), if_neg (by simpa using nonempty), List.reverse_reverse]

theorem splitSpaces_joinTokens (toks : List Text) (clean : ∀ t ∈ toks, cleanToken t = true) :
    splitSpaces (joinTokens toks) [] = toks := by
  induction toks using joinTokens.induct with
  | case1 => rfl
  | case2 t => exact splitSpaces_token_end (clean t (List.mem_singleton_self t))
  | case3 t rest notLast ih =>
    obtain ⟨first, later⟩ := List.forall_mem_cons.1 clean
    rw [joinTokens.eq_3 t rest notLast, splitSpaces_token_space first, ih later]

theorem tokenize_joinTokens {toks : List Text} (clean : ∀ t ∈ toks, cleanToken t = true) : tokenize (joinTokens toks) = toks := by
  rw [tokenize, stripComment_joinTokens toks clean, splitSpaces_joinTokens toks clean]

/-! ### Numbers (44 R236, R242) -/

theorem digitValue_of_isDigit {c : Char} (digit : c.isDigit = true) : digitValue c = some (c.toNat - 48) ∧ c.toNat - 48 < 10 := by
  have range : 48 ≤ c.toNat ∧ c.toNat ≤ 57 := Char.isDigit_iff_toNat.1 digit
  exact ⟨if_pos range, by omega⟩

theorem digitsValue_of_isDigit (ds : Text) (acc : Nat) (digits : ∀ c ∈ ds, c.isDigit = true) :
    digitsValue 10 ds acc = some (Nat.ofDigitChars 10 ds acc) := by
  induction ds generalizing acc with
  | nil => rfl
  | cons c ds ih =>
    obtain ⟨digit, rest⟩ := List.forall_mem_cons.1 digits
    obtain ⟨value, small⟩ := digitValue_of_isDigit digit
    rw [digitsValue, value, Nat.ofDigitChars_cons, Nat.mul_comm]
    exact (if_pos small).trans (ih _ rest)

theorem isDigit_of_mem_decimal {n : Nat} {c : Char} (mem : c ∈ decimal n) : c.isDigit = true :=
  Nat.isDigit_of_mem_toDigits (by decide) (by decide) mem

theorem digitsValue_decimal (n : Nat) : digitsValue 10 (decimal n) 0 = some n := by
  rw [digitsValue_of_isDigit _ 0 fun _ => isDigit_of_mem_decimal, decimal, Nat.ofDigitChars_ten_toDigits]

/-- The decimal text of a number but 0 has no leading zero. -/
theorem head_decimal_ne_zero {n : Nat} (pos : 0 < n) : (decimal n).head? ≠ some '0' := by
  induction n using Nat.strong_induction_on with
  | _ n ih =>
    rw [decimal, Nat.toDigits_eq_if (by decide)]
    by_cases small : n < 10
    · have oneDigit : ∀ n < 10, 0 < n → [Nat.digitChar n].head? ≠ some '0' := by decide
      rw [if_pos small]
      exact oneDigit n small pos
    · rw [if_neg small, List.head?_append_of_ne_nil _ Nat.toDigits_ne_nil]
      exact ih (n / 10) (by omega) (by omega)

/-- An unsigned literal without a leading zero is read in base 10. -/
theorem magnitude_of_head_ne_zero {c : Char} (ds : Text) (notZero : c ≠ '0') : magnitude (c :: ds) = digitsValue 10 (c :: ds) 0 := by
  unfold magnitude
  split <;> simp_all

theorem magnitude_decimal (n : Nat) : magnitude (decimal n) = some n := by
  obtain rfl | pos := Nat.eq_zero_or_pos n
  · rfl
  · have head := head_decimal_ne_zero pos
    rw [← digitsValue_decimal n]
    cases text : decimal n with
    | nil => exact absurd text Nat.toDigits_ne_nil
    | cons c ds =>
      rw [text] at head
      exact magnitude_of_head_ne_zero ds fun zero => head (zero ▸ rfl)

/-- A literal that begins with a digit has no sign. -/
theorem integerLiteral_of_isDigit {c : Char} (ds : Text) (digit : c.isDigit = true) :
    integerLiteral (c :: ds) = (magnitude (c :: ds)).map fun n => (n : Int) := by
  unfold integerLiteral
  split <;> simp_all

theorem integerLiteral_decimal (n : Nat) : integerLiteral (decimal n) = some (n : Int) := by
  have value := magnitude_decimal n
  have digits {c : Char} := isDigit_of_mem_decimal (n := n) (c := c)
  cases text : decimal n with
  | nil => exact absurd text Nat.toDigits_ne_nil
  | cons c ds =>
    rw [text] at value digits
    rw [integerLiteral_of_isDigit ds (digits List.mem_cons_self), value]
    rfl

theorem integerLiteral_signedDecimal (z : Int) : integerLiteral (signedDecimal z) = some z := by
  unfold signedDecimal
  split
  next negative =>
    rw [integerLiteral, magnitude_decimal]
    exact congrArg some (show -(z.natAbs : Int) = z by omega)
  next nonneg =>
    rw [integerLiteral_decimal]
    exact congrArg some (by omega)

theorem immediateToken_immediateText (z : Int) : immediateToken (immediateText z) = .ok z := by
  simp only [immediateToken, immediateText, integerLiteral_signedDecimal]

/-! ### Clean operands (44 R242) -/

theorem cleanChar_of_isDigit {c : Char} (digit : c.isDigit = true) : cleanChar c = true := by
  have range : 48 ≤ c.toNat ∧ c.toNat ≤ 57 := Char.isDigit_iff_toNat.1 digit
  have other (d : Char) (outside : d.toNat < 48 ∨ 57 < d.toNat) : (c == d) = false :=
    beq_eq_false_iff_ne.2 fun same => by rw [same] at range; omega
  rw [cleanChar, isSpace, other ' ' (by decide), other '\t' (by decide), other ';' (by decide), other '#' (by decide)]
  rfl

theorem cleanToken_immediateText (z : Int) : cleanToken (immediateText z) = true := by
  have digits (n : Nat) : ∀ c ∈ decimal n, cleanChar c = true := fun c mem => cleanChar_of_isDigit (isDigit_of_mem_decimal mem)
  rw [cleanToken_iff, immediateText, List.forall_mem_cons]
  refine ⟨List.cons_ne_nil _ _, rfl, ?_⟩
  unfold signedDecimal
  split
  · exact List.forall_mem_cons.2 ⟨rfl, digits _⟩
  · exact digits _

/-- A register but the one without a name has a clean token, which is read back. -/
theorem registerText_reads : ∀ n < 31, cleanToken (registerText [] n) = true ∧ registerToken [] (registerText [] n) = .ok n := by
  decide

/-! ### The mnemonic token (44 R238, R239, R242, R243) -/

/-- The condition slot of a decoded instruction: that of a jump, else 0. -/
def condSlot : DecodedInstr → Nat
  | .jump _ cond _ => cond
  | .triple _ _ _ _ | .double _ _ _ | .single _ _ | .noarg _ | .ldc _ _ _ | .move _ _ _ => 0

/-- A token is clean, no label declaration, and read as the mnemonic of the command at index `k` with a condition slot. -/
def mnemonicReads (k : Nat) (c : Command) (cond : Nat) (m : Text) : Bool :=
  decide (cleanToken m = true ∧ m.head? ≠ some '.' ∧ lookupMnemonic refCodec (splitMnemonic m).1 = .ok k
    ∧ suffixCode c.handler m (splitMnemonic m).2 = .ok cond)

/-- The canonical mnemonic token of every row of the reference table is read back: `jmp` with its condition, the others without. -/
theorem mnemonicText_reads : ∀ p ∈ refTable.zipIdx, ∀ cond ≤ 6, (p.1.handler ≠ .jmp → cond = 0) →
    (mnemonicText p.1 cond).toOption.any (mnemonicReads p.2 p.1 cond) = true := by
  decide

theorem exists_mnemonicText {k : Nat} {c : Command} (atK : refTable[k]? = some c) {cond : Nat} (assigned : cond ≤ 6)
    (plain : c.handler ≠ .jmp → cond = 0) : ∃ m, mnemonicText c cond = .ok m ∧ cleanToken m = true ∧ m.head? ≠ some '.'
      ∧ lookupMnemonic refCodec (splitMnemonic m).1 = .ok k ∧ suffixCode c.handler m (splitMnemonic m).2 = .ok cond := by
  have reads := mnemonicText_reads (c, k) (List.mk_mem_zipIdx_iff_getElem?.2 atK) cond assigned plain
  cases text : mnemonicText c cond with
  | error f => rw [text] at reads; cases reads
  | ok m =>
    rw [text] at reads
    exact ⟨m, rfl, of_decide_eq_true reads⟩

/-- A line whose first token does not begin with a dot is an instruction. -/
theorem classify_of_head {m : Text} (head : m.head? ≠ some '.') (ops : List Text) : classify (m :: ops) = .instruction (m :: ops) := by
  have notLabel : labelDeclaration m = none := by
    unfold labelDeclaration
    split
    · exact absurd rfl head
    · rfl
  cases ops with
  | nil => simp only [classify, notLabel]
  | cons t ts => simp only [classify, notLabel]

/-! ### A line (44 R240 to R243) -/

/-- The operand tokens of a decoded instruction. -/
def operandTokens : DecodedInstr → List Text
  | .triple _ rd rl rr => [registerText [] rd, registerText [] rl, registerText [] rr]
  | .double _ rd rn => [registerText [] rd, registerText [] rn]
  | .single _ rd => [registerText [] rd]
  | .noarg _ => []
  | .ldc _ rd imm => [registerText [] rd, immediateText imm]
  | .move _ rd rn => [registerText [] rd, registerText [] rn]
  | .jump _ _ off => [immediateText off]

/-- The registers of a decoded instruction; a condition slot is none. -/
def registersOf : DecodedInstr → List Nat
  | .triple _ rd rl rr => [rd, rl, rr]
  | .double _ rd rn | .move _ rd rn => [rd, rn]
  | .single _ rd | .ldc _ rd _ => [rd]
  | .noarg _ | .jump _ _ _ => []

theorem textTokens_eq (c : Command) {d : DecodedInstr} {m : Text} (mnemonic : mnemonicText c (condSlot d) = .ok m) :
    textTokens [] c d = .ok (m :: operandTokens d) := by
  have plain (h : mnemonicText c 0 = .ok m) : c.mnemonic = m := by
    unfold mnemonicText at h
    split at h <;> cases h <;> rfl
  cases d with
  | jump o cond off => rw [textTokens, show mnemonicText c cond = .ok m from mnemonic]; rfl
  | triple | double | single | noarg | ldc | move => exact congrArg (fun n => Except.ok (n :: _)) (plain mnemonic)

theorem mem_operandTokens {d : DecodedInstr} {t : Text} (mem : t ∈ operandTokens d) :
    (∃ r ∈ registersOf d, t = registerText [] r) ∨ ∃ z, t = immediateText z := by
  have ofRegisters (plain : operandTokens d = (registersOf d).map (registerText [])) :
      (∃ r ∈ registersOf d, t = registerText [] r) ∨ ∃ z, t = immediateText z := by
    rw [plain] at mem
    obtain ⟨r, isRegister, rfl⟩ := List.mem_map.1 mem
    exact .inl ⟨r, isRegister, rfl⟩
  cases d with
  | triple | double | single | noarg | move => exact ofRegisters rfl
  | ldc o rd imm =>
    obtain rfl | last := List.mem_cons.1 mem
    · exact .inl ⟨rd, List.mem_singleton_self rd, rfl⟩
    · exact .inr ⟨imm, List.mem_singleton.1 last⟩
  | jump o cond off => exact .inr ⟨off, List.mem_singleton.1 mem⟩

section
variable {d : DecodedInstr} (named : ∀ r ∈ registersOf d, r < 31)
include named

theorem cleanToken_operandTokens : ∀ t ∈ operandTokens d, cleanToken t = true := by
  intro t mem
  obtain ⟨r, isRegister, rfl⟩ | ⟨z, rfl⟩ := mem_operandTokens mem
  · exact (registerText_reads r (named r isRegister)).1
  · exact cleanToken_immediateText z

theorem decodeOperands_operandTokens {c : Command} (shape : c.shape = d.shape) (opcode : c.opcode = d.opcode)
    (look : Text → Except Failure Int) : decodeOperands [] look c (condSlot d) (operandTokens d) = .ok d := by
  have register {n : Nat} (h : n < 31) := (registerText_reads n h).2
  have offset (z : Int) : offsetToken look (immediateText z) = .ok z := immediateToken_immediateText z
  cases d <;> simp [registersOf] at named <;>
    simp [decodeOperands, operandTokens, register, immediateToken_immediateText, offset, named, shape, opcode, DecodedInstr.shape,
      DecodedInstr.opcode, condSlot, bind, Except.bind]

end

/-- A word and a line of text that stand for each other: the word disassembles to the line, which is an instruction line that decodes,
under any reading of the labels, to an instruction whose word it is. -/
def LineOf (w : IWord) (line : Text) : Prop :=
  disassembleWord refCodec [] w = .ok line ∧ ∃ toks d, classify (tokenize line) = .instruction toks
    ∧ (∀ look, textDecode refCodec [] look toks = .ok d) ∧ encodeWord refCodec d = .ok w

/-- An instruction with named registers and, for a jump, a condition that its text shows. -/
def Nameable (i : Instr) : Prop :=
  (∀ o, ∀ r ∈ registersOf (i.decoded o), r < 31) ∧ (∀ o, condSlot (i.decoded o) ≤ 6)
    ∧ (i.handler ≠ .jmp → ∀ o, condSlot (i.decoded o) = 0)

/-- An instruction without a condition slot has names when its registers have. -/
theorem nameable_of_registers {i : Instr} (plain : ∀ o, condSlot (i.decoded o) = 0)
    (named : ∀ o, ∀ r ∈ registersOf (i.decoded o), r < 31) :
    Nameable i :=
  ⟨named, fun o => (plain o).trans_le (Nat.zero_le 6), fun _ => plain⟩

theorem Reg.val_lt_of_ne {r : Reg} (notLast : r ≠ 31) : r.val < 31 :=
  Nat.lt_of_le_of_ne (Nat.le_of_lt_succ r.isLt) fun same => notLast (Fin.ext same)

/-- Every well-formed instruction with names has a word and a line that stand for each other. -/
theorem exists_lineOf {i : Instr} (wellFormed : i.wellFormed = true) (names : Nameable i) :
    ∃ w line, encode i = .ok w ∧ LineOf w line := by
  obtain ⟨k, c, atK, handler, shape, encoder, encoded, decoded⟩ := exists_row_of_wellFormed wellFormed
  obtain ⟨named, assigned, plain⟩ := names
  obtain ⟨m, text, clean, head, found, cond⟩ := exists_mnemonicText atK (assigned c.opcode) fun notJmp =>
    plain (handler ▸ notJmp) c.opcode
  obtain ⟨binds, -, -⟩ := operandsBind i
  obtain ⟨-, opcode⟩ := binds c.opcode
  have atK' : refCodec.cmdTable[k]? = some c := atK
  refine ⟨_, joinTokens (m :: operandTokens (i.decoded c.opcode)), encoder.trans encoded, ?_, m :: operandTokens (i.decoded c.opcode),
    _, ?_, fun look => ?_, encoded⟩
  · simp only [disassembleWord, decoded, bind, Except.bind, atK', textTokens_eq c text]
  · rw [tokenize_joinTokens (List.forall_mem_cons.2 ⟨clean, cleanToken_operandTokens (named _)⟩), classify_of_head head]
  · simp only [textDecode, found, bind, Except.bind, atK', cond]
    exact decodeOperands_operandTokens (named _) shape opcode.symm look

/-! ### The disassembler and the two passes (43 R205, 44 R247 to R249) -/

theorem disassemble_of_lines {ws : List IWord} {lines : List Text} (stand : List.Forall₂ LineOf ws lines) :
    disassemble refCodec [] ws = (lines, none) := by
  induction stand with
  | nil => rfl
  | cons line _ ih =>
    obtain ⟨text, -⟩ := line
    rw [disassemble, text, ih]

/-- Pass one counts the lines and declares no label. -/
theorem passOne_of_lines {ws : List IWord} {lines : List Text} (stand : List.Forall₂ LineOf ws lines) (n : Nat) (st : AsmState) :
    passOne refCodec [] n st lines = .ok { st with count := st.count + lines.length } := by
  induction stand generalizing n st with
  | nil => rfl
  | cons line _ ih =>
    obtain ⟨-, toks, d, instruction, decodes, encoded⟩ := line
    simp only [passOne, passOneLine, instruction, decodes, encoded, bind, Except.bind, ih, List.length_cons,
      Nat.add_assoc, Nat.add_comm 1]

theorem passTwo_of_lines {ws : List IWord} {lines : List Text} (stand : List.Forall₂ LineOf ws lines) (labels : List (Text × Nat))
    (n index : Nat) : passTwo refCodec [] labels n index lines = .ok ws := by
  induction stand generalizing n index with
  | nil => rfl
  | cons line _ ih =>
    obtain ⟨-, toks, d, instruction, decodes, encoded⟩ := line
    simp only [passTwo, passTwoLine, instruction, decodes, encoded, bind, Except.bind, ih]

theorem assemble_of_lines {ws : List IWord} {lines : List Text} (stand : List.Forall₂ LineOf ws lines) :
    assemble refCodec [] lines = .ok ws := by
  rw [assemble, passOne_of_lines stand]
  exact passTwo_of_lines stand _ 1 0

/-- The words and lines of a list of instructions, from those of each. -/
theorem exists_lines {is : List Instr} (each : ∀ i ∈ is, ∃ w line, encode i = .ok w ∧ LineOf w line) :
    ∃ ws lines, is.mapM (fun i => encode i) = .ok ws ∧ List.Forall₂ LineOf ws lines := by
  induction is with
  | nil => exact ⟨[], [], rfl, .nil⟩
  | cons i is ih =>
    obtain ⟨⟨w, line, encoded, stand⟩, rest⟩ := List.forall_mem_cons.1 each
    obtain ⟨ws, lines, encodedRest, standRest⟩ := ih rest
    refine ⟨w :: ws, line :: lines, ?_, .cons stand standRest⟩
    rw [List.mapM_cons, encoded, encodedRest]
    rfl

/-! ### The obligation -/

/-- Settles O60: each instruction has a word and a line that stand for each other, and the disassembler and both passes go line by line. -/
theorem textRoundTripIsTheIdentity : Obligations.TextRoundTripIsTheIdentity := by
  intro is each
  obtain ⟨ws, lines, encoded, stand⟩ := exists_lines fun i mem => by
    obtain ⟨wellFormed, jmp, call, registers⟩ := each i mem
    refine exists_lineOf wellFormed ?_
    have below {r : Reg} (notLast : r ≠ 31) : r.val < 31 := Reg.val_lt_of_ne notLast
    cases i with
    | mov a b | sqrt a b | not a b | cmp a b | ldm a b | stm a b | scrhw a b =>
      refine nameable_of_registers (fun _ => rfl) fun _ => List.forall_mem_cons.2 ⟨below (registers a (.inl rfl)), ?_⟩
      exact List.forall_mem_singleton.2 (below (registers b (.inr rfl)))
    | add a b c | sub a b c | mul a b c | div a b c | mod a b c | shl a b c | shr a b c | or a b c | xor a b c | and a b c =>
      refine nameable_of_registers (fun _ => rfl) fun _ => List.forall_mem_cons.2 ⟨below (registers a (.inl rfl)), ?_⟩
      refine List.forall_mem_cons.2 ⟨below (registers b (.inr (.inl rfl))), ?_⟩
      exact List.forall_mem_singleton.2 (below (registers c (.inr (.inr rfl))))
    | ldc a _ | pushr a | popr a | input a | print a | draw a =>
      exact nameable_of_registers (fun _ => rfl) fun _ => List.forall_mem_singleton.2 (below (registers a rfl))
    | ret | dump | halt => exact nameable_of_registers (fun _ => rfl) fun _ => nofun
    | jmp c off => exact ⟨fun _ => nofun, fun _ => jmp c off rfl, fun notJmp => absurd rfl notJmp⟩
    | call c off =>
      obtain rfl := call c off rfl
      exact nameable_of_registers (fun _ => rfl) fun _ => nofun
  exact ⟨ws, lines, encoded, disassemble_of_lines stand, assemble_of_lines stand⟩

end Sys2Proof.Machine
